-- ==== Sys2Proof/Word.lean ====
section
/-! DEFINITION. The width parameter of an engine, the bit vectors it fixes, and the endianness mode. -/

namespace Sys2Proof

/-- `W`: one of 8, 16, 32 and nothing else (spec/00_scope.md R2). -/
inductive Width where
  | w8
  | w16
  | w32
  deriving DecidableEq, Repr

/-- The number of bits `W` stands for (spec/00_scope.md R5). -/
@[reducible] def Width.bits : Width → Nat
  | .w8 => 8
  | .w16 => 16
  | .w32 => 32

/-- `CMD_WIDTH(W) = 8 + 2*W`: 24, 40, 72 (spec/00_scope.md R5, spec/30_encoding.md R73). -/
@[reducible] def Width.cmdBits (w : Width) : Nat := 8 + 2 * w.bits

/-- A `W`-bit unsigned value: `POLY`, `SEED`, `ACC` and each table word (spec/00_scope.md R7). -/
abbrev Word (w : Width) := BitVec w.bits

/-- An input byte, a control byte, a table index (spec/00_scope.md R7, spec/20_memory.md R50). -/
abbrev Byte := BitVec 8

/-- A command word of an engine of width `W` (spec/30_encoding.md R73). -/
abbrev Command (w : Width) := BitVec w.cmdBits

/-- An operand field of a decoded command, carried zero-extended in the width of the widest engine's
operand field, so that one instruction type serves the three widths.
DESIGN CHOICE (log entry 2). -/
abbrev Operand := BitVec 32

/-- The endianness mode, the two values of `END` (spec/10_state.md R22). -/
inductive Endian where
  | forward
  | reflected
  deriving DecidableEq, Repr

end Sys2Proof
end

