-- ==== Sys2Proof/Syntax.lean ====
section
/-! DEFINITION. The commands of the engine, one constructor per row of spec/opcode_table.json. -/

namespace Sys2Proof

/-- A decoded command (spec/30_encoding.md R76). Operands of `W` bits are carried zero-extended. -/
inductive Instr where
  /-- `RESET`, format Z (spec/42_configuration.md R141). -/
  | reset
  /-- `SET_POLY value`, format A (R142). -/
  | setPoly (value : Operand)
  /-- `SET_END value`, format E (R143). -/
  | setEnd (value : Endian)
  /-- `SET_SEED value`, format A (R144). -/
  | setSeed (value : Operand)
  /-- `FLIP`, format Z (R145). -/
  | flip
  /-- `ADD_BYTE byte`, format B (spec/41_byte_update.md R121). -/
  | addByte (byte : Byte)
  /-- `INIT_RAW poly, end, seed`, format I (spec/43_construction_catalog.md R160). -/
  | initRaw (poly : Operand) (mode : Endian) (seed : Operand)
  /-- `INIT_NAME name, end, seed`, format I; the name is a catalog index (R161). -/
  | initName (name : Operand) (mode : Endian) (seed : Operand)
  deriving DecidableEq, Repr

end Sys2Proof
end

