-- ==== Sys2Proof/WellFormed.lean ====
section
/-! DEFINITION. Which instructions an engine of a given width has a command word for: every operand fits its field. -/

namespace Sys2Proof

/-- The operand is a `W`-bit unsigned value (spec/30_encoding.md R73, R75). -/
abbrev Operand.fits (w : Width) (a : Operand) : Prop := a.toNat < 2 ^ w.bits

/-- An instruction is well formed for width `W` exactly when its `W`-bit operands fit (spec/30_encoding.md R75).
The other operands are legal by type: every byte, either mode. -/
abbrev Instr.WellFormed (w : Width) : Instr → Prop
  | .reset => True
  | .setPoly v => Operand.fits w v
  | .setEnd _ => True
  | .setSeed v => Operand.fits w v
  | .flip => True
  | .addByte _ => True
  | .initRaw p _ s => Operand.fits w p ∧ Operand.fits w s
  | .initName n _ s => Operand.fits w n ∧ Operand.fits w s

/-- The same as a Bool, for tests and for a host that wants to check an instruction before encoding it. -/
def Instr.wellFormed (w : Width) : Instr → Bool
  | .reset => true
  | .setPoly v => decide (Operand.fits w v)
  | .setEnd _ => true
  | .setSeed v => decide (Operand.fits w v)
  | .flip => true
  | .addByte _ => true
  | .initRaw p _ s => decide (Operand.fits w p) && decide (Operand.fits w s)
  | .initName n _ s => decide (Operand.fits w n) && decide (Operand.fits w s)

end Sys2Proof
end

