-- ==== Sys2Proof/Decode.lean ====
section
/-! DEFINITION. The command word: its fields, the decoder (total, rejecting by name), the encoder, and the fixed name
`decodeTableWord` of the interface; also the width of the one instance the interface's names stand for. -/

namespace Sys2Proof

/-- The width of the instance that `State.reset`, `decodeTableWord` and `withFetchWord` stand for.
The spec gives `W` no default ("none; must be given", spec/92_eei_decisions.md section 2).
DESIGN CHOICE: 16, the width of the source's own scenario (log entry 1). -/
def instanceWidth : Width := .w16

/-! ## The mode bit -/

/-- `0 = Forward`, `1 = Reflected` (spec/10_state.md R22, spec/30_encoding.md R74). -/
def Endian.ofBit (b : Bool) : Endian := if b then .reflected else .forward

/-- The bit that stands for a mode (spec/10_state.md R22). -/
def Endian.toBit : Endian → Bool
  | .forward => false
  | .reflected => true

/-! ## Fields (spec/30_encoding.md R73, R74) -/

/-- `ctl = cmd[7:0]` (R73). -/
def ctlOf {w : Width} (cmd : Command w) : Byte := cmd.extractLsb' 0 8

/-- `a = cmd[W+7:8]` (R73). -/
def aOf {w : Width} (cmd : Command w) : Word w := cmd.extractLsb' 8 w.bits

/-- `b = cmd[2W+7:W+8]` (R73). -/
def bOf {w : Width} (cmd : Command w) : Word w := cmd.extractLsb' (w.bits + 8) w.bits

/-- `op = ctl[3:0]` (R74). -/
def opOf (ctl : Byte) : BitVec 4 := ctl.extractLsb' 0 4

/-- `e = ctl[4]` (R74). -/
def eOf (ctl : Byte) : Endian := Endian.ofBit (ctl.getLsbD 4)

/-- `rsv = ctl[7:5]` (R74). -/
def rsvOf (ctl : Byte) : BitVec 3 := ctl.extractLsb' 5 3

/-! ## Decoding (spec/30_encoding.md R77, R79) -/

/-- Why a word encodes no operation (R79). -/
inductive Illegal where
  /-- `ctl[7:5]` is not 000. -/
  | reservedBits (ctl : Byte)
  /-- `op` is 0x0 or one of 0x9 to 0xF. -/
  | reservedOpcode (ctl : Byte)
  deriving DecidableEq, Repr

/-- `Decode(cmd)` (R77): the reserved bits first, then the opcode; operand fields never take part. -/
def decode (w : Width) (cmd : Command w) : Except Illegal Instr :=
  let ctl := ctlOf cmd
  let a : Operand := (aOf cmd).setWidth 32
  let b : Operand := (bOf cmd).setWidth 32
  if rsvOf ctl ≠ 0#3 then .error (.reservedBits ctl)
  else match (opOf ctl).toNat with
    | 0x1 => .ok .reset
    | 0x2 => .ok (.setPoly a)
    | 0x3 => .ok (.setEnd (eOf ctl))
    | 0x4 => .ok (.setSeed a)
    | 0x5 => .ok .flip
    | 0x6 => .ok (.addByte (a.setWidth 8))
    | 0x7 => .ok (.initRaw a (eOf ctl) b)
    | 0x8 => .ok (.initName a (eOf ctl) b)
    | _ => .error (.reservedOpcode ctl)

/-! ## Encoding -/

/-- `op` of each operation (spec/30_encoding.md R76). -/
def Instr.opcode : Instr → BitVec 4
  | .reset => 0x1
  | .setPoly _ => 0x2
  | .setEnd _ => 0x3
  | .setSeed _ => 0x4
  | .flip => 0x5
  | .addByte _ => 0x6
  | .initRaw _ _ _ => 0x7
  | .initName _ _ _ => 0x8

/-- The endianness operand; 0 (Forward) where the format has none (spec/30_encoding.md R75, R78). -/
def Instr.fieldE : Instr → Endian
  | .setEnd e => e
  | .initRaw _ e _ => e
  | .initName _ e _ => e
  | _ => .forward

/-- Operand field `a`; 0 where the format has none (R75, R78). -/
def Instr.fieldA : Instr → Operand
  | .setPoly v => v
  | .setSeed v => v
  | .addByte x => x.setWidth 32
  | .initRaw p _ _ => p
  | .initName n _ _ => n
  | _ => 0

/-- Operand field `b`; 0 where the format has none (R75, R78). -/
def Instr.fieldB : Instr → Operand
  | .initRaw _ _ s => s
  | .initName _ _ s => s
  | _ => 0

/-- The control byte: `rsv = 000`, then `e`, then `op` (R74). -/
def Instr.ctl (i : Instr) : Byte := 0#3 ++ BitVec.ofBool i.fieldE.toBit ++ i.opcode

/-- `cmd = b * 2^(W+8) + a * 2^8 + ctl` (R73), with every unused field 0 (R78). -/
def encode (w : Width) (i : Instr) : Command w :=
  BitVec.ofNat w.cmdBits
    (i.fieldB.toNat * 2 ^ (w.bits + 8) + i.fieldA.toNat * 2 ^ 8 + i.ctl.toNat)

/-! ## The interface's fixed name -/

/-- The command word whose low `nbits` bits are those of `v` and whose other bits are 0. -/
def tableWord (w : Width) (nbits v : Nat) : Command w := BitVec.ofNat w.cmdBits (v % 2 ^ nbits)

/-- What the decoder of the interface's instance reads from a word numbered as the opcode table numbers it. -/
def decodeTableWord (nbits w : Nat) : Option Instr :=
  match decode instanceWidth (tableWord instanceWidth nbits w) with
  | .ok i => some i
  | .error _ => none

end Sys2Proof
end

