-- ==== Sys2Proof/Machine/Catalog.lean ====
section
/-! DEFINITION. The polynomial_catalog: the ROM's contents, names and form, and the defaults of construction.
They are data: no rule depends on a particular constant (spec/92_eei_decisions.md D19, D20). -/

namespace Sys2Proof.Machine

/-- The catalog of width `W`: names in the source's order, each with its constant (spec/43_construction_catalog.md R163).
The 16-bit CCITT constant is kept as the source has it (R166, spec/90_conflicts.md C6; log entry 9). -/
def catalog : (w : Width) → List (String × Word w)
  | .w8 =>
    [("AUTOSAR", 0xF4#8), ("Bluetooth", 0xE5#8), ("CCITT", 0xE0#8), ("Dallas", 0x8C#8), ("DARC", 0x9C#8),
     ("DVB", 0xAB#8), ("GSM_B", 0x92#8), ("Maxim", 0x8C#8), ("SAE_J1850", 0xB8#8), ("WCDMA", 0xD9#8)]
  | .w16 =>
    [("ARINC", 0xD405#16), ("CCITT", 0x8404#16), ("CDMA2000", 0xE613#16), ("Chakravarty", 0xA8F4#16),
     ("DECT", 0x91A0#16), ("DNP", 0xA6BC#16), ("IBM", 0xA001#16), ("OpenSafety_A", 0xAC9A#16),
     ("OpenSafety_B", 0xDAAE#16), ("Profibus", 0xF3B8#16), ("T10", 0xEDD1#16)]
  | .w32 =>
    [("Castagnoli", 0x82F63B78#32), ("ISO_3309", 0xEDB88320#32), ("Koopman", 0xEB31D82E#32),
     ("Koopman_2", 0x992C1A4C#32), ("Q", 0xD5828281#32)]

/-- `N_NAMES(W)` (spec/00_scope.md R5). -/
def nNames (w : Width) : Nat := (catalog w).length

/-- `CAT_W[n]`, nothing for an index outside the catalog (spec/20_memory.md R51). -/
def catalogConst (w : Width) (index : Nat) : Option (Word w) := (catalog w)[index]?.map Prod.snd

/-- `CATALOG_FORM`: the representation the ROM holds its constants in (spec/43_construction_catalog.md R165). -/
def catalogForm : Endian := .reflected

/-- `DEFAULT_POLY(W)` (spec/00_scope.md R5). -/
def defaultPoly : (w : Width) → Word w
  | .w8 => 0xE0#8
  | .w16 => 0xA001#16
  | .w32 => 0xEDB88320#32

/-- `DEFAULT_END` (spec/00_scope.md R5, spec/90_conflicts.md C1). -/
def defaultEnd : Endian := .reflected

/-- `DEFAULT_SEED` (spec/00_scope.md R5). -/
def defaultSeed (w : Width) : Word w := 0#w.bits

end Sys2Proof.Machine
end

