-- ==== Sys2Proof/Config.lean ====
section
/-! DEFINITION. What an implementation fixes or leaves free: the two width-independent sizes and the free value of `GEN_IDX`.
The parameters a test could show wrong (the instance's width, the catalog ROM, the defaults) stand in
Sys2Proof/Decode.lean and Sys2Proof/Machine/Catalog.lean. -/

namespace Sys2Proof

/-- `TABLE_DEPTH`: 256 for every `W` (spec/00_scope.md R5). -/
abbrev Config.tableDepth : Nat := 256

/-- `COUNT_WIDTH`: 64 (spec/00_scope.md R5). -/
abbrev Config.countBits : Nat := 64

/-- A FREE VALUE: what `GEN_IDX` holds after a generation has ended, which the spec leaves unspecified while
`BUSY = 0` (spec/10_state.md R28, R40; spec/93_implementation_defined.md U9). The argument is a counter of `Engine`.
No body: nothing can be proved about its values (log entry 5). -/
opaque Config.idleGenIdx : Nat → BitVec 8

end Sys2Proof
end

