-- ==== Sys2Proof/Machine/TableGen.lean ====
section
/-! DEFINITION. The arithmetic primitive `Rev_W`, one table entry and the whole table. Written for a generic width `n`. The shifts and exclusive-or of spec/00_scope.md R8 are those of
`BitVec n`: a left shift loses the bits past bit `n-1`, and a shift by `n` or more gives 0. -/

namespace Sys2Proof.Machine

/-- `Rev_W(v)`: `r[k] = v[W-1-k]` (spec/00_scope.md R9). -/
def rev {n : Nat} (v : BitVec n) : BitVec n := v.reverse

/-- `TBL`, 256 words (spec/10_state.md R26). A vector: there is one value for each index 0..255 and nothing else,
so equal tables are equal data (log entry 10). -/
abbrev Table (n : Nat) := Vector (BitVec n) Config.tableDepth

/-- `MemRead(TBL, i)` (spec/00_scope.md R10). -/
def Table.read {n : Nat} (t : Table n) (i : Byte) : BitVec n := t[i.toNat]'i.isLt

/-- `MemWrite(TBL, i, v)` (spec/00_scope.md R10). -/
def Table.write {n : Nat} (t : Table n) (i : Byte) (v : BitVec n) : Table n := t.set i.toNat v i.isLt

/-- One bit-step of the Forward branch: test the top bit, shift left, then XOR
(spec/40_table_generation.md R101, `Step_F` of spec/41_byte_update.md R126). -/
def stepForward {n : Nat} (p v : BitVec n) : BitVec n := if v.msb then (v <<< 1) ^^^ p else v <<< 1

/-- One bit-step of the Reflected branch: test the low bit, shift right, then XOR
(spec/40_table_generation.md R102, `Step_R` of spec/41_byte_update.md R126). -/
def stepReflected {n : Nat} (p v : BitVec n) : BitVec n := if v.getLsbD 0 then (v >>> 1) ^^^ p else v >>> 1

/-- One bit-step of the mode in force. -/
def bitStep {n : Nat} (p : BitVec n) : Endian → BitVec n → BitVec n
  | .forward => stepForward p
  | .reflected => stepReflected p

/-- Where a byte is placed in the register before the 8 bit-steps: the top byte in Forward mode (R101), the low byte in
Reflected mode (R102). -/
def placeByte {n : Nat} (e : Endian) (i : Byte) : BitVec n :=
  match e with
  | .forward => (i.setWidth n) <<< (n - 8)
  | .reflected => i.setWidth n

/-- `GenEntry(p, e, i)` (spec/40_table_generation.md R101, R102). -/
def genEntry {n : Nat} (p : BitVec n) (e : Endian) (i : Byte) : BitVec n := (bitStep p e)^[8] (placeByte e i)

/-- `GenTable(p, e)`: `TBL[i] = GenEntry(p, e, i)` for every `i` (spec/40_table_generation.md R100, R103). -/
def genTable {n : Nat} (p : BitVec n) (e : Endian) : Table n := Vector.ofFn fun i => genEntry p e (BitVec.ofFin i)

end Sys2Proof.Machine
end

