-- ==== Sys2Proof/Machine/Generator.lean ====
section
/-! DEFINITION. The CRC_table_generator as a sub-block with its own ports (spec/40_table_generation.md R104). One cycle of it is
one table word written, or the pulse of `gen_done`. -/

namespace Sys2Proof.Machine

/-- Where a run of the generator stands: between runs; issuing its 256 writes; or past them, pulsing `gen_done`. -/
inductive GenPhase where
  | idle
  | writing
  | done
  deriving DecidableEq, Repr

/-- The sub-block's own state (R104): the counter `GEN_IDX` and the phase of the run. `freeCount` is the model's own, the
argument of the next free value of `GEN_IDX` (log entry 5). -/
structure Generator where
  phase : GenPhase
  genIdx : Byte
  freeCount : Nat
  deriving DecidableEq, Repr

/-- The sub-block's inputs (R104). -/
structure GenIn (n : Nat) where
  genStart : Bool
  genPoly : BitVec n
  genEnd : Endian
  deriving DecidableEq, Repr

/-- The sub-block's outputs (R104): the write port into the table, and `gen_done`. The address and the data have no value on a
cycle with `tbl_we = 0`, since R104 gives them none (log entry 7). -/
structure GenPort (n : Nat) where
  tblWe : Bool
  tblAddr : Option Byte
  tblWdata : Option (BitVec n)
  genDone : Bool
  deriving DecidableEq, Repr

/-- What the sub-block drives on a cycle (R104): the write of the word at `GEN_IDX` while it writes, `gen_done` on the cycle
after the last write, nothing between runs. It reads no table word. -/
def Generator.out {n : Nat} (i : GenIn n) (g : Generator) : GenPort n :=
  match g.phase with
  | .idle => ⟨false, none, none, false⟩
  | .writing => ⟨true, some g.genIdx, some (genEntry i.genPoly i.genEnd g.genIdx), false⟩
  | .done => ⟨false, none, none, true⟩

/-- The run is over: `GEN_IDX` takes the next free value (spec/10_state.md R28; log entry 5). -/
def Generator.release (g : Generator) : Generator := ⟨.idle, Config.idleGenIdx g.freeCount, g.freeCount + 1⟩

/-- The sub-block's next state (R104): `gen_start` begins a run at index 0, whatever it was doing; the indices ascend to 255;
then one cycle of `gen_done`; then idle. -/
def Generator.next {n : Nat} (i : GenIn n) (g : Generator) : Generator :=
  if i.genStart then { g with phase := .writing, genIdx := 0 }
  else match g.phase with
    | .idle => g
    | .writing => if g.genIdx = 0xFF then { g with phase := .done } else { g with genIdx := g.genIdx + 1 }
    | .done => g.release

/-- The table memory on a cycle: the word at the write port goes in where `tbl_we = 1`. -/
def Table.clocked {n : Nat} (port : GenPort n) (t : Table n) : Table n :=
  match port.tblWe, port.tblAddr, port.tblWdata with
  | true, some addr, some word => t.write addr word
  | _, _, _ => t

end Sys2Proof.Machine
end

