-- ==== Sys2Proof/Machine/State.lean ====
section
/-! DEFINITION. The state of one engine, what the host presents next, the state after reset, and the reasons to stop. -/

namespace Sys2Proof.Machine

/-- The response codes of spec/60_exceptions.md R190. Code 3 is never produced. -/
inductive Response where
  | ok
  | invalidConfiguration
  | illegalCommand
  deriving DecidableEq, Repr

/-- The two error kinds, the complete list (spec/60_exceptions.md R191 to R193). -/
inductive ErrorKind where
  | invalidConfiguration
  | illegalCommand
  deriving DecidableEq, Repr

/-- One engine of width `W` (spec/10_state.md R20). The first ten fields are the spec's; the last four are the model's own
(log entries 4, 5, 6). -/
structure Engine (w : Width) where
  /-- `POLY`, R21. -/
  poly : Word w
  /-- `END`, R22. -/
  endian : Endian
  /-- `SEED`, R23. -/
  seed : Word w
  /-- `ACC`, R24. -/
  acc : Word w
  /-- `COUNT`, R25. -/
  count : BitVec Config.countBits
  /-- `TBL`, R26. -/
  table : Table w.bits
  /-- `ERR.INVCFG`, R27. -/
  errInvCfg : Bool
  /-- `ERR.ILLCMD`, R27. -/
  errIllCmd : Bool
  /-- `BUSY`, R28. -/
  busy : Bool
  /-- `GEN_IDX`, R28. -/
  genIdx : Byte
  /-- Where a run of the table generator stands, from `gen_start` to `gen_done` (spec/40_table_generation.md R104). -/
  genPhase : GenPhase
  /-- The response the command in progress owes (spec/30_encoding.md R71); none during the generation of a reset. -/
  pending : Option Response
  /-- What `rsp_valid` and `rsp_code` show (spec/30_encoding.md R70). -/
  rsp : Option Response
  /-- The argument of the next free value of `GEN_IDX`. -/
  freeCount : Nat
  deriving DecidableEq, Repr

/-- What the host presents to an engine that is ready (spec/30_encoding.md R71, spec/70_reset_and_hazards.md R210, R212). -/
inductive HostEvent (w : Width) where
  /-- A command word, held until it is accepted. -/
  | command (cmd : Command w)
  /-- `rst` asserted between commands. -/
  | hardwareReset
  /-- A command word, with `rst` sampled high before the command completes. -/
  | commandThenReset (cmd : Command w)
  deriving DecidableEq, Repr

/-- The machine: an instance's width, its engine, and what the host goes on to present, the next first
(log entries 1 and 3). -/
structure State where
  width : Width
  engine : Engine width
  input : List (HostEvent width)
  deriving DecidableEq, Repr

/-- No fault exists: `Exec` is total and nothing in the engine can become stuck (spec/60_exceptions.md R193, R205).
The engine's two errors are next states. -/
inductive Fault
  deriving DecidableEq, Repr

/-- The reasons a step may be refused. -/
inductive Refusal where
  /-- Raised by an arm of `exec` whose instruction has no meaning yet. Safe: the model stops. No arm raises it. -/
  | notModelled (mnemonic : String)
  deriving DecidableEq, Repr

/-- A step's outcome. -/
abbrev Result := Host.Outcome State Fault Refusal

/-- The engine after hardware reset has completed (spec/10_state.md R40). `GEN_IDX`, which R40 leaves unspecified, is 0:
DESIGN CHOICE (log entry 5). -/
def Engine.reset (w : Width) : Engine w where
  poly := defaultPoly w
  endian := defaultEnd
  seed := defaultSeed w
  acc := defaultSeed w
  count := 0
  table := genTable (defaultPoly w) defaultEnd
  errInvCfg := false
  errIllCmd := false
  busy := false
  genIdx := 0
  genPhase := .idle
  pending := none
  rsp := none
  freeCount := 0

/-- The machine of width `W` after reset, with nothing presented. -/
def State.resetOf (w : Width) : State where
  width := w
  engine := Engine.reset w
  input := []

/-- The interface's machine after reset (log entry 1). -/
def State.reset : State := State.resetOf instanceWidth

end Sys2Proof.Machine
end

