-- ==== Sys2Proof/Machine/Flags.lean ====
section
/-! DEFINITION. The flags. The engine has no condition codes (spec/10_state.md R38); its only flag-like state is `BUSY` and
the two sticky error bits, and its only comparisons are the equality compares of the setters. -/

namespace Sys2Proof.Machine

/-- The code driven on `rsp_code` (spec/60_exceptions.md R190). -/
def Response.code : Response → BitVec 2
  | .ok => 0
  | .invalidConfiguration => 1
  | .illegalCommand => 2

/-- The response an error kind is reported with (spec/60_exceptions.md R191, R192). -/
def ErrorKind.response : ErrorKind → Response
  | .invalidConfiguration => .invalidConfiguration
  | .illegalCommand => .illegalCommand

/-- Set the sticky bit of an error kind; the other bit is left as it is (spec/10_state.md R27). -/
def Engine.setErr {w : Width} (k : ErrorKind) (e : Engine w) : Engine w :=
  match k with
  | .invalidConfiguration => { e with errInvCfg := true }
  | .illegalCommand => { e with errIllCmd := true }

/-- `status_o`: bit 0 = `BUSY`, bit 1 = `ERR.INVCFG`, bit 2 = `ERR.ILLCMD` (spec/10_state.md R29). -/
def Engine.statusBits {w : Width} (e : Engine w) : BitVec 3 :=
  BitVec.ofBool e.errIllCmd ++ BitVec.ofBool e.errInvCfg ++ BitVec.ofBool e.busy

/-- The bit that tells a host that something went wrong since reset (spec/60_exceptions.md R205). -/
def Engine.errSeen {w : Width} (e : Engine w) : Bool := e.errInvCfg || e.errIllCmd

end Sys2Proof.Machine
end

