-- ==== Sys2Proof/Machine/Operands.lean ====
section
/-! DEFINITION. The operand forms: the value an operand field stands for, the two table indices of `ADD_BYTE`, and the
catalog index. These are all the engine's ways of forming an address (spec/20_memory.md R62); the third, the generator's
index, is `Engine.genIdx`. -/

namespace Sys2Proof.Machine

/-- An operand as the `W`-bit unsigned value it is (spec/30_encoding.md R75): nothing is scaled, shifted or sign-extended.
For a well-formed instruction nothing is lost (log entry 2). -/
def operandValue (w : Width) (a : Operand) : Word w := a.setWidth w.bits

/-- The Forward table index: the top byte of `acc`, XOR the input byte (spec/41_byte_update.md R120). -/
def forwardIndex {n : Nat} (acc : BitVec n) (byte : Byte) : Byte := (acc >>> (n - 8)).setWidth 8 ^^^ byte

/-- The Reflected table index: `(acc XOR byte) & 0xFF` (spec/41_byte_update.md R120). -/
def reflectedIndex {n : Nat} (acc : BitVec n) (byte : Byte) : Byte :=
  ((acc ^^^ byte.setWidth n) &&& 0xFF#n).setWidth 8

/-- The table index of the mode in force. -/
def tableIndex {n : Nat} (e : Endian) (acc : BitVec n) (byte : Byte) : Byte :=
  match e with
  | .forward => forwardIndex acc byte
  | .reflected => reflectedIndex acc byte

/-- The catalog index: the whole operand as an unsigned integer, not a sub-field (spec/30_encoding.md R75). -/
def catalogIndex (name : Operand) : Nat := name.toNat

end Sys2Proof.Machine
end

