-- ==== Sys2Proof/Machine/Ops.lean ====
section
/-! DEFINITION. The shared operations: giving a response, raising an error, the procedure `Reset()`, and hardware reset. -/

namespace Sys2Proof.Machine

variable {w : Width}

/-- The command ends with this response code (spec/60_exceptions.md R190). -/
def Engine.respond (r : Response) (e : Engine w) : Engine w := { e with rsp := some r }

/-- TAKING AN ERROR, the one shared operation: the sticky bit is set and the code given; nothing else changes, no control is
transferred and nothing is saved (spec/60_exceptions.md R191, R192, R196). There is no return from it (R197). -/
def Engine.raise (k : ErrorKind) (e : Engine w) : Engine w := (e.setErr k).respond k.response

/-- `Reset()`: the table from `POLY` and `END`, `ACC <- SEED`, `COUNT <- 0` (spec/42_configuration.md R140). -/
def Engine.resetProc (e : Engine w) : Engine w :=
  { e with table := genTable e.poly e.endian, acc := e.seed, count := 0 }

/-- The default configuration that hardware reset loads before it calls `Reset()` (spec/70_reset_and_hazards.md R210). -/
def Engine.loadDefaults (e : Engine w) : Engine w :=
  { e with
    errInvCfg := false
    errIllCmd := false
    poly := defaultPoly w
    endian := defaultEnd
    seed := defaultSeed w }

/-- The table generator inside the engine (spec/40_table_generation.md R104). -/
def Engine.generator (e : Engine w) : Generator := ⟨e.genPhase, e.genIdx, e.freeCount⟩

/-- The engine with its generator in another state. -/
def Engine.withGenerator (g : Generator) (e : Engine w) : Engine w :=
  { e with genPhase := g.phase, genIdx := g.genIdx, freeCount := g.freeCount }

/-- The response port shows nothing (spec/30_encoding.md R70). -/
def Engine.idle (e : Engine w) : Engine w := { e with rsp := none }

/-- `HardwareReset`, from `rst` to the first moment the engine is ready again (spec/70_reset_and_hazards.md R210 to R212):
a command in progress is abandoned, no response is given. -/
def Engine.hardwareReset (e : Engine w) : Engine w :=
  { e.loadDefaults.resetProc.withGenerator e.generator.release with busy := false, pending := none, rsp := none }

/-- The machine with another engine state; the width and the host's presentations stay. -/
def State.withEngine (s : State) (e : Engine s.width) : State := { s with engine := e }

end Sys2Proof.Machine
end

