-- ==== Sys2Proof/Machine/ByteUpdate.lean ====
section
/-! DEFINITION. The CRC_byte_update_engine: `AddByte` and the command `ADD_BYTE`. -/

namespace Sys2Proof.Machine

variable {w : Width}

/-- The accumulator shifted by a byte: left in Forward mode, right in Reflected mode; 0 for `W = 8` in either
(spec/41_byte_update.md R120, R122). -/
def shiftByte {n : Nat} (e : Endian) (acc : BitVec n) : BitVec n :=
  match e with
  | .forward => acc <<< 8
  | .reflected => acc >>> 8

/-- `AddByte(acc, tbl, byte, e)` (spec/41_byte_update.md R120). -/
def addByte {n : Nat} (acc : BitVec n) (tbl : Table n) (byte : Byte) (e : Endian) : BitVec n :=
  shiftByte e acc ^^^ tbl.read (tableIndex e acc byte)

/-- `ADD_BYTE byte` (spec/41_byte_update.md R121); `COUNT` wraps at 2^64 (R123). -/
def Engine.addByte (byte : Byte) (e : Engine w) : Engine w :=
  { e with acc := Machine.addByte e.acc e.table byte e.endian, count := e.count + 1 }.respond .ok

/-- The meaning of `ADD_BYTE`. -/
def execAddByte (byte : Byte) (s : State) : Result := .next (s.withEngine (s.engine.addByte byte))

end Sys2Proof.Machine
end

