-- ==== Sys2Proof/Machine/Configuration.lean ====
section
/-! DEFINITION. `RESET`, the three setters and `FLIP` (spec/42_configuration.md). -/

namespace Sys2Proof.Machine

variable {w : Width}

/-- `RESET` (R141). -/
def Engine.cmdReset (e : Engine w) : Engine w := e.resetProc.respond .ok

/-- The meaning of `RESET`. -/
def execReset (s : State) : Result := .next (s.withEngine s.engine.cmdReset)

/-- `SET_POLY value` (R142); the value held already is a no-op (R146). -/
def Engine.setPoly (value : Word w) (e : Engine w) : Engine w :=
  (if value ≠ e.poly then { e with poly := value }.resetProc else e).respond .ok

/-- The meaning of `SET_POLY`. -/
def execSetPoly (value : Operand) (s : State) : Result :=
  .next (s.withEngine (s.engine.setPoly (operandValue s.width value)))

/-- `SET_END value` (R143): `POLY` is not reversed. -/
def Engine.setEnd (value : Endian) (e : Engine w) : Engine w :=
  (if value ≠ e.endian then { e with endian := value }.resetProc else e).respond .ok

/-- The meaning of `SET_END`. -/
def execSetEnd (value : Endian) (s : State) : Result := .next (s.withEngine (s.engine.setEnd value))

/-- `SET_SEED value` (R144). -/
def Engine.setSeed (value : Word w) (e : Engine w) : Engine w :=
  (if value ≠ e.seed then { e with seed := value }.resetProc else e).respond .ok

/-- The meaning of `SET_SEED`. -/
def execSetSeed (value : Operand) (s : State) : Result :=
  .next (s.withEngine (s.engine.setSeed (operandValue s.width value)))

/-- The other mode. -/
def otherMode : Endian → Endian
  | .forward => .reflected
  | .reflected => .forward

/-- `FLIP` (R145): both old values are read before either changes; `Reset()` is unconditional. -/
def Engine.flip (e : Engine w) : Engine w :=
  { e with poly := rev e.poly, endian := otherMode e.endian }.resetProc.respond .ok

/-- The meaning of `FLIP`. -/
def execFlip (s : State) : Result := .next (s.withEngine s.engine.flip)

end Sys2Proof.Machine
end

