-- ==== Sys2Proof/Machine/Construction.lean ====
section
/-! DEFINITION. Construction in place: `INIT_RAW` and `INIT_NAME` (spec/43_construction_catalog.md). -/

namespace Sys2Proof.Machine

variable {w : Width}

/-- The three configuration registers written, then `Reset()` (R160, R161). -/
def Engine.construct (poly : Word w) (mode : Endian) (seed : Word w) (e : Engine w) : Engine w :=
  { e with poly := poly, endian := mode, seed := seed }.resetProc

/-- `INIT_RAW poly, end, seed` (R160): the polynomial is stored as given, whatever the mode. -/
def Engine.initRaw (poly : Word w) (mode : Endian) (seed : Word w) (e : Engine w) : Engine w :=
  (e.construct poly mode seed).respond .ok

/-- The meaning of `INIT_RAW`. -/
def execInitRaw (poly : Operand) (mode : Endian) (seed : Operand) (s : State) : Result :=
  .next (s.withEngine (s.engine.initRaw (operandValue s.width poly) mode (operandValue s.width seed)))

/-- A constant held in the form `form`, in the representation that `mode` needs (R161, R165). -/
def representIn (form mode : Endian) (c : Word w) : Word w := if mode = form then c else rev c

/-- The polynomial that a name stands for, by a catalog whose constants are in the form `form` (R161): nothing when the
index is outside the catalog. Catalog and form are arguments, since the spec makes both parameters of a model
(spec/92_eei_decisions.md D19, D20). -/
def resolveName (cat : List (String × Word w)) (form mode : Endian) (index : Nat) : Option (Word w) :=
  cat[index]?.map fun entry => representIn form mode entry.2

/-- `INIT_NAME name, end, seed` (R161): an index outside the catalog raises `InvalidConfiguration` and nothing else
happens (spec/60_exceptions.md R191). -/
def Engine.initName (index : Nat) (mode : Endian) (seed : Word w) (e : Engine w) : Engine w :=
  match resolveName (catalog w) catalogForm mode index with
  | none => e.raise .invalidConfiguration
  | some poly => (e.construct poly mode seed).respond .ok

/-- The meaning of `INIT_NAME`. -/
def execInitName (name : Operand) (mode : Endian) (seed : Operand) (s : State) : Result :=
  .next (s.withEngine (s.engine.initName (catalogIndex name) mode (operandValue s.width seed)))

end Sys2Proof.Machine
end

