-- ==== Sys2Proof/Machine/Dispatch.lean ====
section
/-! DEFINITION. One arm per command: spec/30_encoding.md R76. -/

namespace Sys2Proof.Machine

def exec (i : Instr) (s : State) : Host.Outcome State Fault Refusal :=
  match i with
  | .reset => Sys2Proof.Machine.execReset s
  | .setPoly value => Sys2Proof.Machine.execSetPoly value s
  | .setEnd value => Sys2Proof.Machine.execSetEnd value s
  | .setSeed value => Sys2Proof.Machine.execSetSeed value s
  | .flip => Sys2Proof.Machine.execFlip s
  | .addByte byte => Sys2Proof.Machine.execAddByte byte s
  | .initRaw poly mode seed => Sys2Proof.Machine.execInitRaw poly mode seed s
  | .initName name mode seed => Sys2Proof.Machine.execInitName name mode seed s

end Sys2Proof.Machine
end

