-- ==== Sys2Proof/Machine/Effect.lean ====
section
/-! DEFINITION. `Exec` on one engine (spec/00_scope.md R11), apart from whose command it is: what a decoded command and what a
command word do to an engine, and which commands call `Reset()`. -/

namespace Sys2Proof.Machine

variable {w : Width}

/-- What a decoded command does to an engine: the same effect that the arms of `exec` give. -/
def Engine.effect (i : Instr) (e : Engine w) : Engine w :=
  match i with
  | .reset => e.cmdReset
  | .setPoly value => e.setPoly (operandValue w value)
  | .setEnd value => e.setEnd value
  | .setSeed value => e.setSeed (operandValue w value)
  | .flip => e.flip
  | .addByte byte => e.addByte byte
  | .initRaw poly mode seed => e.initRaw (operandValue w poly) mode (operandValue w seed)
  | .initName name mode seed => e.initName (catalogIndex name) mode (operandValue w seed)

/-- `Exec(s, cmd)` on a command word (spec/00_scope.md R11): decoding comes first (spec/60_exceptions.md R195), and an illegal
word raises `IllegalCommand` (R192). -/
def Engine.execWord (cmd : Command w) (e : Engine w) : Engine w :=
  match decode w cmd with
  | .ok i => e.effect i
  | .error _ => e.raise .illegalCommand

/-- Whether a command calls `Reset()`, and so regenerates the table (spec/42_configuration.md R148,
spec/43_construction_catalog.md R160, R161). -/
def Engine.callsReset (i : Instr) (e : Engine w) : Bool :=
  match i with
  | .reset => true
  | .setPoly value => decide (operandValue w value ≠ e.poly)
  | .setEnd value => decide (value ≠ e.endian)
  | .setSeed value => decide (operandValue w value ≠ e.seed)
  | .flip => true
  | .addByte _ => false
  | .initRaw _ _ _ => true
  | .initName name _ _ => decide (catalogIndex name < nNames w)

/-- The same for a command word; an illegal word calls nothing. -/
def Engine.wordCallsReset (cmd : Command w) (e : Engine w) : Bool :=
  match decode w cmd with
  | .ok i => e.callsReset i
  | .error _ => false

end Sys2Proof.Machine
end

