-- ==== Sys2Proof/Machine/Sequencer.lean ====
section
/-! DEFINITION. The engine below the transaction level: the command handshake, `BUSY`, `GEN_IDX`, and the table written word by
word (spec/30_encoding.md R70, R71; spec/40_table_generation.md R104; spec/70_reset_and_hazards.md R211, R212, R215).
One clock edge with `BUSY = 1` is one internal action: the generator writes one word, or the response is given (at the edge
that sees `gen_done`, where the command generates). The spec fixes no cycle counts (R223); this is one schedule it allows (log
entries 6 and 12). -/

namespace Sys2Proof.Machine

variable {w : Width}

/-- The input ports (spec/30_encoding.md R70). -/
structure PortIn (w : Width) where
  rst : Bool
  cmdValid : Bool
  cmd : Command w
  deriving DecidableEq, Repr

/-- `gen_start` (spec/40_table_generation.md R104): `rst` is sampled high, or a command that calls `Reset()` is accepted. -/
def Engine.genStart (p : PortIn w) (e : Engine w) : Bool :=
  p.rst || (!e.busy && p.cmdValid && e.wordCallsReset p.cmd)

/-- What the engine drives to its generator: `gen_poly` and `gen_end` are `POLY` and `END`
(spec/40_table_generation.md R103, R104). -/
def Engine.genIn (p : PortIn w) (e : Engine w) : GenIn w.bits := ⟨e.genStart p, e.poly, e.endian⟩

/-- What the generator inside the engine drives. -/
def Engine.genOut (p : PortIn w) (e : Engine w) : GenPort w.bits := e.generator.out (e.genIn p)

/-- `rst` sampled high: the default configuration is loaded and a command in progress is abandoned; `BUSY` is 1 and no response
is given (spec/70_reset_and_hazards.md R210 to R212). -/
def Engine.beginReset (e : Engine w) : Engine w :=
  { e.loadDefaults.resetProc with busy := true, pending := none, rsp := none }

/-- A command word is accepted (spec/30_encoding.md R71): `BUSY` is 1 until it has completed. The registers take their new
values here, which no port shows before completion (R72). -/
def Engine.accept (cmd : Command w) (e : Engine w) : Engine w :=
  { e.execWord cmd with busy := true, pending := (e.execWord cmd).rsp, rsp := none }

/-- The command has done its work: the response it owes is shown and the engine is ready (spec/30_encoding.md R71). -/
def Engine.complete (e : Engine w) : Engine w := { e with busy := false, rsp := e.pending, pending := none }

/-- A command in progress waits for the table: a run of the generator has begun and `gen_done` is low
(spec/40_table_generation.md R104). -/
def Engine.waitsForTable (p : PortIn w) (e : Engine w) : Bool := e.genPhase != .idle && !(e.genOut p).genDone

/-- What an edge does to everything but the generator and the table memory. `rst` overrides everything
(spec/60_exceptions.md R195); while busy the command port is ignored; a response is shown for exactly one edge
(spec/30_encoding.md R70, R71). -/
def Engine.control (p : PortIn w) (e : Engine w) : Engine w :=
  if p.rst then e.beginReset
  else if e.busy then (if e.waitsForTable p then e.idle else e.complete)
  else if p.cmdValid then e.accept p.cmd
  else e.idle

/-- One rising edge of `clk`: the control, the generator and the table memory each take their step. The table is written through
the generator's port only (spec/10_state.md R26). -/
def Engine.edge (p : PortIn w) (e : Engine w) : Engine w :=
  { (e.control p).withGenerator (e.generator.next (e.genIn p)) with table := e.table.clocked (e.genOut p) }

/-- One edge with `rst` low and nothing presented. -/
def Engine.advance (e : Engine w) : Engine w := e.edge ⟨false, false, 0⟩

/-- Up to `n` internal actions, none once the engine is ready. -/
def Engine.runBusy : Nat → Engine w → Engine w
  | 0, e => e
  | n + 1, e => if e.busy then runBusy n e.advance else e

/-- Run to the next moment the engine is ready. 257 actions are enough from any state: 256 writes, then the edge
that sees `gen_done` and shows the response. -/
def Engine.drain (e : Engine w) : Engine w := e.runBusy (Config.tableDepth + 1)

end Sys2Proof.Machine
end

