-- ==== Sys2Proof/Machine/Transaction.lean ====
section
/-! DEFINITION. One transaction of the machine, from one moment at which the engine is ready to the next
(spec/00_scope.md R11, spec/30_encoding.md R71; log entry 14). -/

namespace Sys2Proof.Machine

/-- An accepted word is decoded; a legal one is executed, an illegal one raises `IllegalCommand`
(spec/60_exceptions.md R192, R195). -/
def runCommand (s : State) (cmd : Command s.width) : Result :=
  match decode s.width cmd with
  | .ok i => exec i s
  | .error _ => .next (s.withEngine (s.engine.raise .illegalCommand))

/-- What the host presents takes effect. A word that `rst` cuts short leaves nothing but the reset
(spec/70_reset_and_hazards.md R212). -/
def runEvent (s : State) : HostEvent s.width → Result
  | .command cmd => runCommand s cmd
  | .hardwareReset => .next (s.withEngine s.engine.hardwareReset)
  | .commandThenReset _ => .next (s.withEngine s.engine.hardwareReset)

/-- One transaction. A busy engine accepts nothing: it runs to the end of what it is doing (spec/30_encoding.md R71; log
entry 8). A ready engine takes the host's next presentation; with none it stays ready, its outputs stable, and shows no
response (spec/60_exceptions.md R204, spec/30_encoding.md R70). -/
def transaction (s : State) : Result :=
  if s.engine.busy then .next (s.withEngine s.engine.drain)
  else match s.input with
    | [] => .next (s.withEngine s.engine.idle)
    | event :: later => runEvent { s with input := later } event

/-- The host presents a word to a ready engine, before anything else it was going to present. -/
def State.present (s : State) (cmd : Command s.width) : State :=
  { s with engine := { s.engine with busy := false }, input := .command cmd :: s.input }

end Sys2Proof.Machine
end

