-- ==== Sys2Proof/Machine/Step.lean ====
section
/-! DEFINITION. The machine's step and the interface's way to place one instruction. -/

namespace Sys2Proof.Machine

/-- One step: one transaction. -/
def step (s : State) : Host.Outcome State Fault Refusal := transaction s

/-- The machine to which the host presents the word of `nbits` low bits `w`, the very next step running it. -/
def State.withFetchWord (s : State) (nbits w : Nat) : State := s.present (tableWord s.width nbits w)

end Sys2Proof.Machine
end

