-- ==== Sys2Proof/Machine/HostDriver.lean ====
section
/-! DEFINITION. What the spec gives the host side: the textual rendering of the accumulator and the pseudo-operations, which
expand to commands and which the engine never sees (spec/44_accessors.md R186; spec/30_encoding.md R83). -/

namespace Sys2Proof.Machine

/-- The lowercase hexadecimal digit of a value below 16 (spec/44_accessors.md R186). -/
def hexDigit (d : Nat) : Char :=
  ['0', '1', '2', '3', '4', '5', '6', '7', '8', '9', 'a', 'b', 'c', 'd', 'e', 'f'].getD d '0'

/-- The `n` hexadecimal digits of `v`, most significant first, leading zeros kept. -/
def hexDigits : Nat → Nat → List Char
  | 0, _ => []
  | n + 1, v => hexDigits n (v / 16) ++ [hexDigit (v % 16)]

/-- `Render_W(v)`: exactly `W/4` digits, no prefix and no suffix (spec/44_accessors.md R186). -/
def render (w : Width) (v : Word w) : String := String.ofList (hexDigits (w.bits / 4) v.toNat)

/-- `ADD_BYTES b1, ..., bn`: one `ADD_BYTE` for each byte, in order; nothing for no byte
(spec/30_encoding.md R83, spec/41_byte_update.md R124). -/
def addBytesOps (bytes : List Byte) : List Instr := bytes.map .addByte

/-- `INIT_DEF end, seed` = `INIT_RAW DEFAULT_POLY(W), end, seed`: the raw path, not reversed
(spec/43_construction_catalog.md R162). Omitted operands are `REFL` and 0 (spec/30_encoding.md R83). -/
def initDefOp (w : Width) (mode : Endian := defaultEnd) (seed : Operand := 0) : Instr :=
  .initRaw ((defaultPoly w).setWidth 32) mode seed

/-- The index of a catalog name of width `W`: its place in the source's list (spec/43_construction_catalog.md R163). -/
def nameIndex (w : Width) (name : String) : Option Nat := (catalog w).findIdx? fun entry => entry.1 == name

end Sys2Proof.Machine
end

