-- ==== Sys2Proof/Machine/Assembler.lean ====
section
/-! DEFINITION. The textual syntax of programs and its expansion to command words (spec/30_encoding.md R82, R83). It is a
host-side function: the engine sees command words only. Nothing is answered for a line that is no line of that syntax, for a
number that does not fit its field, and for a name that is not in the width's catalog (an assembly-time error,
spec/91_not_in_source.md N20; log entry 15). -/

namespace Sys2Proof.Machine

/-- The tokens of a line. -/
inductive Token where
  | bare (chars : List Char)
  | quoted (chars : List Char)
  | comma
  deriving DecidableEq, Repr

/-- The bare token read so far, if there is one. -/
def flushBare (sofar : List Char) : List Token := if sofar.isEmpty then [] else [.bare sofar.reverse]

/-- The tokens of a line; `quote` holds the characters of an open quotation, the last first. A `;` outside a quotation
begins a comment. -/
def tokenize : Option (List Char) → List Char → List Char → Option (List Token)
  | none, sofar, [] => some (flushBare sofar)
  | some _, _, [] => none
  | some quote, sofar, c :: rest =>
    if c == '"' then (tokenize none sofar rest).map (.quoted quote.reverse :: ·)
    else tokenize (some (c :: quote)) sofar rest
  | none, sofar, c :: rest =>
    if c == ';' then some (flushBare sofar)
    else if c == '"' then (tokenize (some []) [] rest).map (flushBare sofar ++ ·)
    else if c == ',' then (tokenize none [] rest).map (flushBare sofar ++ .comma :: ·)
    else if c == ' ' || c == '\t' || c == '\r' then (tokenize none [] rest).map (flushBare sofar ++ ·)
    else tokenize none (c :: sofar) rest

/-- A digit's value in base 16 (lower or upper case). -/
def digitValue (c : Char) : Option Nat :=
  if '0' ≤ c ∧ c ≤ '9' then some (c.toNat - '0'.toNat)
  else if 'a' ≤ c ∧ c ≤ 'f' then some (c.toNat - 'a'.toNat + 10)
  else if 'A' ≤ c ∧ c ≤ 'F' then some (c.toNat - 'A'.toNat + 10)
  else none

/-- The value of a digit string in a base, after the digits read so far. -/
def digitsValue (base : Nat) : Nat → List Char → Option Nat
  | value, [] => some value
  | value, c :: rest =>
    match digitValue c with
    | some d => if d < base then digitsValue base (value * base + d) rest else none
    | none => none

/-- A number in C style: `0x..` hexadecimal or decimal. -/
def parseNumber : List Char → Option Nat
  | '0' :: 'x' :: d :: rest => digitsValue 16 0 (d :: rest)
  | d :: rest => digitsValue 10 0 (d :: rest)
  | [] => none

/-- A number below `2 ^ n`. -/
def parseField (n : Nat) (chars : List Char) : Option Nat := (parseNumber chars).filter (· < 2 ^ n)

/-- `FWD` (0) or `REFL` (1). -/
def parseMode (chars : List Char) : Option Endian :=
  if chars == "FWD".toList then some .forward else if chars == "REFL".toList then some .reflected else none

/-- A catalog index, as a number or as a name of this width. -/
def parseName (w : Width) (chars : List Char) : Option Nat :=
  match parseField w.bits chars with
  | some index => some index
  | none => nameIndex w (String.ofList chars)

/-- The operands after a mnemonic: tokens with one comma between each two. -/
def operandList : List Token → Option (List Token)
  | [] => some []
  | [.comma] => none
  | [t] => some [t]
  | .comma :: _ => none
  | t :: .comma :: u :: rest => (operandList (u :: rest)).map (t :: ·)
  | _ => none

/-- The bytes of an `ADD_BYTES`: numbers, or the ASCII codes of a text's characters (R83). -/
def parseBytes : List Token → Option (List Byte)
  | [] => some []
  | .bare chars :: rest =>
    match parseField 8 chars, parseBytes rest with
    | some v, some bytes => some (BitVec.ofNat 8 v :: bytes)
    | _, _ => none
  | .quoted chars :: rest =>
    match parseBytes rest with
    | some bytes => if chars.all (·.toNat < 128) then some (chars.map (fun c => BitVec.ofNat 8 c.toNat) ++ bytes) else none
    | none => none
  | .comma :: _ => none

/-- The optional last operands `end, seed`: `REFL` and 0 where omitted (R83). -/
def parseModeSeed (w : Width) : List Token → Option (Endian × Operand)
  | [] => some (defaultEnd, 0)
  | [.bare e] => (parseMode e).map (·, 0)
  | [.bare e, .bare s] =>
    match parseMode e, parseField w.bits s with
    | some mode, some seed => some (mode, BitVec.ofNat 32 seed)
    | _, _ => none
  | _ => none

/-- The read accessors, which emit no command (R83; spec/44_accessors.md). -/
def accessorNames : List String := ["GET_POLY", "GET_SEED", "GET_END", "GET_CRC", "GET_COUNT", "GET_STATUS"]

/-- The commands that a mnemonic and its operands stand for (R82, R83). -/
def parseOp (w : Width) (mnemonic : String) (operands : List Token) : Option (List Instr) :=
  match mnemonic, operands with
  | "RESET", [] => some [.reset]
  | "SET_POLY", [.bare v] => (parseField w.bits v).map fun n => [.setPoly (BitVec.ofNat 32 n)]
  | "SET_END", [.bare e] => (parseMode e).map fun mode => [.setEnd mode]
  | "SET_SEED", [.bare v] => (parseField w.bits v).map fun n => [.setSeed (BitVec.ofNat 32 n)]
  | "FLIP", [] => some [.flip]
  | "ADD_BYTE", [.bare b] => (parseField 8 b).map fun n => [.addByte (BitVec.ofNat 8 n)]
  | "INIT_RAW", .bare p :: more =>
    match parseField w.bits p, parseModeSeed w more with
    | some n, some (mode, seed) => some [.initRaw (BitVec.ofNat 32 n) mode seed]
    | _, _ => none
  | "INIT_NAME", .bare name :: more =>
    match parseName w name, parseModeSeed w more with
    | some n, some (mode, seed) => some [.initName (BitVec.ofNat 32 n) mode seed]
    | _, _ => none
  | "INIT_DEF", more => (parseModeSeed w more).map fun (mode, seed) => [initDefOp w mode seed]
  | "ADD_BYTES", bytes => (parseBytes bytes).map addBytesOps
  | other, [] => if accessorNames.contains other then some [] else none
  | _, _ => none

/-- The command words of one line (R82). `.word value` is a raw word, legal or not. -/
def assembleLine (w : Width) (line : List Char) : Option (List (Command w)) :=
  match tokenize none [] line with
  | none => none
  | some [] => some []
  | some (.bare m :: rest) =>
    match operandList rest with
    | none => none
    | some operands =>
      match String.ofList m, operands with
      | ".word", [.bare v] => (parseField w.cmdBits v).map fun n => [BitVec.ofNat w.cmdBits n]
      | mnemonic, operands => (parseOp w mnemonic operands).map (·.map (encode w))
  | some _ => none

/-- The lines of a text. -/
def splitLines : List Char → List Char → List (List Char)
  | sofar, [] => [sofar.reverse]
  | sofar, c :: rest => if c == '\n' then sofar.reverse :: splitLines [] rest else splitLines (c :: sofar) rest

/-- The command words of a program's lines, in order. -/
def assembleLines (w : Width) : List (List Char) → Option (List (Command w))
  | [] => some []
  | line :: rest =>
    match assembleLine w line, assembleLines w rest with
    | some words, some more => some (words ++ more)
    | _, _ => none

/-- `.width 8`, `.width 16` or `.width 32` (R82). -/
def parseWidth (line : List Char) : Option Width :=
  match tokenize none [] line with
  | some [.bare d, .bare n] =>
    if d != ".width".toList then none
    else match parseNumber n with
      | some 8 => some .w8
      | some 16 => some .w16
      | some 32 => some .w32
      | _ => none
  | _ => none

/-- A program: the width once, before the commands (R82). -/
def assemble (program : String) : Option ((w : Width) × List (Command w)) :=
  match splitLines [] program.toList with
  | [] => none
  | first :: rest =>
    match parseWidth first with
    | none => none
    | some w => (assembleLines w rest).map fun words => ⟨w, words⟩

end Sys2Proof.Machine
end

