-- ==== Sys2Proof/Machine/Ports.lean ====
section
/-! DEFINITION. The output ports and the read accessors, which are port reads and not commands
(spec/30_encoding.md R70, R72; spec/44_accessors.md R180 to R187). A port that the spec leaves unspecified on a cycle has no
value here (log entry 7). -/

namespace Sys2Proof.Machine

variable {w : Width}

/-- `cmd_ready = NOT BUSY` (spec/30_encoding.md R70). -/
def Engine.cmdReady (e : Engine w) : Bool := !e.busy

/-- `rsp_valid` (spec/30_encoding.md R70). -/
def Engine.rspValid (e : Engine w) : Bool := e.rsp.isSome

/-- `rsp_code`, meaningful only while `rsp_valid = 1` (spec/30_encoding.md R70). -/
def Engine.rspCode (e : Engine w) : Option (BitVec 2) := e.rsp.map Response.code

/-- A value shown on an observation port, valid only while the engine is ready (spec/30_encoding.md R72). -/
def Engine.observe {α : Type} (e : Engine w) (value : α) : Option α := if e.cmdReady then some value else none

/-- `GET_POLY`: port `poly_o` (spec/44_accessors.md R180). -/
def Engine.getPoly (e : Engine w) : Option (Word w) := e.observe e.poly

/-- `GET_SEED`: port `seed_o` (R181). -/
def Engine.getSeed (e : Engine w) : Option (Word w) := e.observe e.seed

/-- `GET_END`: port `end_o`, 0 Forward, 1 Reflected (R182). -/
def Engine.getEnd (e : Engine w) : Option Bool := e.observe e.endian.toBit

/-- `GET_CRC`: port `crc_o` is `ACC` exactly, with no final stage (R183). -/
def Engine.getCrc (e : Engine w) : Option (Word w) := e.observe e.acc

/-- `GET_COUNT`: port `count_o` (R184). -/
def Engine.getCount (e : Engine w) : Option (BitVec Config.countBits) := e.observe e.count

/-- `GET_STATUS`: port `status_o` whole (R187), on a cycle on which all three bits mean something. -/
def Engine.getStatus (e : Engine w) : Option (BitVec 3) := e.observe e.statusBits

/-- `status_o[0] = BUSY`, the one bit that is meaningful on every cycle (R187). -/
def Engine.statusBusy (e : Engine w) : Bool := e.busy

/-- All output ports on one cycle (spec/30_encoding.md R70). -/
structure PortOut (w : Width) where
  cmdReady : Bool
  rspValid : Bool
  rspCode : Option (BitVec 2)
  polyO : Option (Word w)
  seedO : Option (Word w)
  endO : Option Bool
  crcO : Option (Word w)
  countO : Option (BitVec Config.countBits)
  statusO : Option (BitVec 3)
  statusBusy : Bool
  deriving DecidableEq, Repr

/-- What the engine drives (spec/30_encoding.md R70, R72). Reading has no side effect: the engine is not changed. -/
def Engine.ports (e : Engine w) : PortOut w where
  cmdReady := e.cmdReady
  rspValid := e.rspValid
  rspCode := e.rspCode
  polyO := e.getPoly
  seedO := e.getSeed
  endO := e.getEnd
  crcO := e.getCrc
  countO := e.getCount
  statusO := e.getStatus
  statusBusy := e.statusBusy

end Sys2Proof.Machine
end

