-- ==== Sys2Proof/Safety.lean ====
section
/-! DEFINITION. The terms claims are stated in: what a good state is, runs of commands, the bytes fed since the last reset,
and equality up to the hidden `GEN_IDX`. -/

namespace Sys2Proof.Machine

variable {w : Width}

/-! ## Good states -/

/-- The table is the one `POLY` and `END` determine (spec/10_state.md R31). -/
abbrev Engine.TableConsistent (e : Engine w) : Prop := e.table = genTable e.poly e.endian

/-- No command is in progress: the engine is ready, the generator is idle and no response is owed
(spec/10_state.md R28). -/
abbrev Engine.Quiescent (e : Engine w) : Prop := e.busy = false ∧ e.genPhase = .idle ∧ e.pending = none

/-- The words of the table that a generation in progress has written already are right
(spec/20_memory.md R63; spec/40_table_generation.md R103). -/
abbrev Engine.WrittenSoFar (e : Engine w) : Prop :=
  ∀ i : Byte, i.toNat < e.genIdx.toNat → e.table.read i = genEntry e.poly e.endian i

/-- What every clock edge keeps: a ready engine owes nothing and its generator is idle; while the generator writes, the
words below `GEN_IDX` are right; when it does not, the whole table is. -/
abbrev Engine.Coherent (e : Engine w) : Prop :=
  (e.busy = false → e.genPhase = .idle ∧ e.pending = none) ∧
  (e.genPhase = .writing → e.WrittenSoFar) ∧
  (e.genPhase ≠ .writing → e.TableConsistent)

/-- The invariant between commands: ready and consistent (spec/10_state.md R28, R31). -/
abbrev Engine.Settled (e : Engine w) : Prop := e.Quiescent ∧ e.TableConsistent

/-! ## Runs -/

/-- The commands one after the other, each to completion, stopping where one does not answer a next state
(spec/00_scope.md R11). -/
def execSeq : List Instr → State → Result
  | [], s => .next s
  | i :: rest, s =>
    match exec i s with
    | .next t => execSeq rest t
    | .fault r => .fault r
    | .refused r => .refused r

/-- The accumulator after a sequence of bytes: the left fold of `AddByte` (spec/41_byte_update.md R124). -/
def feed {n : Nat} (acc : BitVec n) (tbl : Table n) (e : Endian) (bytes : List Byte) : BitVec n :=
  bytes.foldl (fun a byte => addByte a tbl byte e) acc

/-- `n` clock edges with nothing presented and `rst` low. -/
def Engine.quietEdges (n : Nat) (e : Engine w) : Engine w := Engine.advance^[n] e

/-! ## The bytes fed since the last reset (spec/10_state.md R32) -/

/-- The bytes given by the `ADD_BYTE` commands since the most recent `Reset()`, after one more command. -/
def bytesAfter (i : Instr) (e : Engine w) (bytes : List Byte) : List Byte :=
  match i with
  | .addByte byte => bytes ++ [byte]
  | _ => if e.callsReset i then [] else bytes

/-- `COUNT` counts those bytes modulo `2^64`, and `ACC` is their CRC with the seed, table and mode in force (R32). -/
abbrev Engine.AccountsFor (e : Engine w) (bytes : List Byte) : Prop :=
  e.count.toNat = bytes.length % 2 ^ 64 ∧ e.acc = feed e.seed e.table e.endian bytes

/-- The ghost list after a whole sequence of commands. -/
def bytesAfterSeq : List Instr → Engine w → List Byte → List Byte
  | [], _, bytes => bytes
  | i :: rest, e, bytes => bytesAfterSeq rest (e.effect i) (bytesAfter i e bytes)

/-! ## Equality up to what is hidden -/

/-- The engine with `GEN_IDX` and the counter of its free values left out: the spec gives `GEN_IDX` no value while the engine
is ready, and no port shows it (spec/10_state.md R28). -/
def Engine.hideGenIdx (e : Engine w) : Engine w := { e with genIdx := 0, freeCount := 0 }

/-! ## The spec's pseudocode on unsigned integers

The primitives of spec/00_scope.md R8 and the procedures of R101, R102 and R120, written on `Nat` with the width as a number,
independently of the bit vectors of the model. Claims say that the model computes these. -/

/-- `trunc_W(v)` (R8). -/
def Num.trunc (W v : Nat) : Nat := v % 2 ^ W

/-- `shl_W(v, n)` (R8). -/
def Num.shl (W v n : Nat) : Nat := Num.trunc W (v * 2 ^ n)

/-- `shr(v, n)` (R8). -/
def Num.shr (v n : Nat) : Nat := v / 2 ^ n

/-- The loop body of R101. -/
def Num.stepForward (W p v : Nat) : Nat :=
  if v / 2 ^ (W - 1) % 2 = 1 then Num.shl W v 1 ^^^ p else Num.shl W v 1

/-- The loop body of R102. -/
def Num.stepReflected (p v : Nat) : Nat := if v % 2 = 1 then Num.shr v 1 ^^^ p else Num.shr v 1

/-- `GenEntry(p, Forward, i)` (R101). -/
def Num.genEntryForward (W p i : Nat) : Nat := (Num.stepForward W p)^[8] (Num.shl W i (W - 8))

/-- `GenEntry(p, Reflected, i)` (R102). -/
def Num.genEntryReflected (p i : Nat) : Nat := (Num.stepReflected p)^[8] i

/-- The Forward index (R120). -/
def Num.indexForward (W acc byte : Nat) : Nat := Num.shr acc (W - 8) ^^^ byte

/-- The Reflected index (R120). -/
def Num.indexReflected (acc byte : Nat) : Nat := (acc ^^^ byte) &&& 0xFF

/-! ## The access matrix (spec/10_state.md R30) -/

/-- The columns of R30. -/
inductive Column where
  | poly
  | endian
  | seed
  | acc
  | count
  | table
  | errInvCfg
  | errIllCmd
  deriving DecidableEq, Repr

/-- Where R30 has a `W` or a `w` in a command's row. -/
def mayWrite : Instr → List Column
  | .addByte _ => [.acc, .count]
  | .reset => [.acc, .count, .table]
  | .setPoly _ => [.poly, .acc, .count, .table]
  | .setEnd _ => [.endian, .acc, .count, .table]
  | .setSeed _ => [.seed, .acc, .count, .table]
  | .flip => [.poly, .endian, .acc, .count, .table]
  | .initRaw _ _ _ => [.poly, .endian, .seed, .acc, .count, .table]
  | .initName _ _ _ => [.poly, .endian, .seed, .acc, .count, .table, .errInvCfg]

/-- A column has the same contents in two engines; of the table, every word. -/
def Column.Same (c : Column) (e f : Engine w) : Prop :=
  match c with
  | .poly => e.poly = f.poly
  | .endian => e.endian = f.endian
  | .seed => e.seed = f.seed
  | .acc => e.acc = f.acc
  | .count => e.count = f.count
  | .table => ∀ i : Byte, e.table.read i = f.table.read i
  | .errInvCfg => e.errInvCfg = f.errInvCfg
  | .errIllCmd => e.errIllCmd = f.errIllCmd

/-- The command raises `InvalidConfiguration` (spec/60_exceptions.md R191). -/
def raisesInvalid (w : Width) : Instr → Bool
  | .initName name _ _ => decide (nNames w ≤ catalogIndex name)
  | _ => false

end Sys2Proof.Machine
end

