-- ==== Sys2Proof/Certificates/Slice0/Obligations.lean ====
section
/-! DEFINITION. The statements for the provers. Each docstring names the rule of spec/ that it formalises. -/

open Sys2Proof
open Sys2Proof.Machine

/-! ## Primitives, table generation, byte update -/

/-- R9: `Rev_W` reverses the bits within the width and is its own inverse; the rule's five examples. -/
def Obligations.RevReversesBitsAndIsInvolutive : Prop :=
  (∀ (w : Width) (v : Word w),
    (∀ k, k < w.bits → (rev v).getLsbD k = v.getLsbD (w.bits - 1 - k)) ∧ rev (rev v) = v) ∧
  rev 0xE0#8 = 0x07#8 ∧ rev 0xA001#16 = 0x8005#16 ∧ rev 0xEDB88320#32 = 0x04C11DB7#32 ∧ rev 0x01#8 = 0x80#8 ∧
  ∀ w : Width, rev (0 : Word w) = 0

/-- R101: the Forward entry is the one the rule's pseudocode computes on unsigned integers, with its corner cases and its
worked example. -/
def Obligations.GenEntryForwardComputesR101 : Prop :=
  (∀ (w : Width) (p : Word w) (i : Byte),
    (genEntry p .forward i).toNat = Num.genEntryForward w.bits p.toNat i.toNat ∧
    genEntry p .forward 0 = 0 ∧ genEntry p .forward 1 = p ∧ genEntry (0 : Word w) .forward i = 0) ∧
  (List.range 9).map (fun k => (stepForward 0x8005#16)^[k] (placeByte .forward 0x80)) =
    [0x8000#16, 0x8005#16, 0x800F#16, 0x801B#16, 0x8033#16, 0x8063#16, 0x80C3#16, 0x8183#16, 0x8303#16]

/-- R102: the Reflected entry is the one the rule's pseudocode computes on unsigned integers, with its corner cases and its
worked example. -/
def Obligations.GenEntryReflectedComputesR102 : Prop :=
  (∀ (w : Width) (p : Word w) (i : Byte),
    (genEntry p .reflected i).toNat = Num.genEntryReflected p.toNat i.toNat ∧
    genEntry p .reflected 0 = 0 ∧ genEntry p .reflected 0x80 = p ∧ genEntry (0 : Word w) .reflected i = 0) ∧
  (List.range 9).map (fun k => (stepReflected 0xA001#16)^[k] (placeByte .reflected 0x01)) =
    [0x0001#16, 0xA001#16, 0xF001#16, 0xD801#16, 0xCC01#16, 0xC601#16, 0xC301#16, 0xC181#16, 0xC0C1#16]

/-- R106: fixed entries, linearity in the index, the eight generating entries, the zero polynomial. -/
def Obligations.GenEntryIsLinearInTheIndex : Prop :=
  ∀ (w : Width) (p : Word w) (e : Endian),
    genEntry p e 0 = 0 ∧
    genEntry p .forward 0x01 = p ∧ genEntry p .reflected 0x80 = p ∧
    (∀ i j : Byte, genEntry p e (i ^^^ j) = genEntry p e i ^^^ genEntry p e j) ∧
    (∀ i : Byte, genEntry p e i =
      ((List.range 8).filter i.getLsbD).foldl (fun v k => v ^^^ genEntry p e (BitVec.ofNat 8 (2 ^ k))) 0) ∧
    (∀ i : Byte, genEntry (0 : Word w) e i = 0)

/-- R105: the Reflected table of the reversed polynomial is the Forward table with every index and every word reversed. -/
def Obligations.ReflectedTableMirrorsForwardTable : Prop :=
  ∀ (w : Width) (p : Word w) (i : Byte),
    genEntry (rev p) .reflected (rev i) = rev (genEntry p .forward i) ∧
    (genTable (rev p) .reflected).read (rev i) = rev ((genTable p .forward).read i)

/-- R103: the whole table, entry by entry, and the rule's worked example. -/
def Obligations.GenTableHoldsEveryEntry : Prop :=
  (∀ (w : Width) (p : Word w) (e : Endian) (i : Byte), (genTable p e).read i = genEntry p e i) ∧
  (genTable 0xA001#16 .reflected).read 0x00 = 0x0000#16 ∧ (genTable 0xA001#16 .reflected).read 0x01 = 0xC0C1#16 ∧
  (genTable 0xA001#16 .reflected).read 0x80 = 0xA001#16 ∧ (genTable 0xA001#16 .reflected).read 0xFF = 0x4040#16

/-- R120: the update function in each mode is the one the rule's pseudocode computes on unsigned integers, for every table;
the indices lie in 0..255; the rule's two worked examples. -/
def Obligations.AddByteComputesR120 : Prop :=
  (∀ (w : Width) (acc : Word w) (tbl : Table w.bits) (byte : Byte),
    Num.indexForward w.bits acc.toNat byte.toNat < 256 ∧
    Num.indexReflected acc.toNat byte.toNat < 256 ∧
    (addByte acc tbl byte .forward).toNat =
      Num.shl w.bits acc.toNat 8 ^^^ (tbl.read (BitVec.ofNat 8 (Num.indexForward w.bits acc.toNat byte.toNat))).toNat ∧
    (addByte acc tbl byte .reflected).toNat =
      Num.shr acc.toNat 8 ^^^ (tbl.read (BitVec.ofNat 8 (Num.indexReflected acc.toNat byte.toNat))).toNat) ∧
  addByte 0xD4C1#16 (genTable 0xA001#16 .reflected) 0x32 .reflected = 0x4594#16 ∧
  addByte 0x80A5#16 (genTable 0x8005#16 .forward) 0x32 .forward = 0xA6AC#16

/-- R122: at width 8 both modes reduce to `table[accumulator XOR byte]`, because the shift primitives give 0 for a shift by the
full width; the modes still differ, through the table's contents. -/
def Obligations.AddByteAtWidth8IsOneTableRead : Prop :=
  (∀ (acc : Word .w8) (tbl : Table 8) (byte : Byte) (e : Endian),
    addByte acc tbl byte e = tbl.read (acc ^^^ byte) ∧ shiftByte e acc = 0 ∧ tableIndex e acc byte = acc ^^^ byte) ∧
  ∃ p : Word .w8, genTable p .forward ≠ genTable p .reflected

/-- R126: with the generated table, one byte update is eight bit-steps of the accumulator with the byte XORed in. -/
def Obligations.TableDrivenUpdateEqualsEightBitSteps : Prop :=
  ∀ (w : Width) (p acc : Word w) (byte : Byte),
    addByte acc (genTable p .forward) byte .forward =
      (stepForward p)^[8] (acc ^^^ ((byte.setWidth w.bits) <<< (w.bits - 8))) ∧
    addByte acc (genTable p .reflected) byte .reflected = (stepReflected p)^[8] (acc ^^^ byte.setWidth w.bits)

/-- R127: a Reflected run with reversed polynomial, seed and bytes mirrors the Forward run after every byte (the statement
holds of every sequence, so of every first part of one); the same bytes give different checksums, as in the rule's example. -/
def Obligations.ReflectedRunMirrorsForwardRun : Prop :=
  (∀ (w : Width) (p seed : Word w) (bytes : List Byte),
    feed (rev seed) (genTable (rev p) .reflected) .reflected (bytes.map rev) =
      rev (feed seed (genTable p .forward) .forward bytes)) ∧
  feed 0#16 (genTable 0x8005#16 .forward) .forward [0x31, 0x32, 0x33, 0x34, 0x35, 0x36, 0x37, 0x38, 0x39] = 0xFEE8#16 ∧
  feed 0#16 (genTable 0xA001#16 .reflected) .reflected [0x31, 0x32, 0x33, 0x34, 0x35, 0x36, 0x37, 0x38, 0x39] = 0xBB3D#16

/-! ## The command word -/

/-- R85: the rule's worked encodings decode to the commands it names, and its illegal words to none. -/
def Obligations.WorkedEncodingsDecode : Prop :=
  decode .w16 0x0000000001 = .ok .reset ∧
  decode .w16 0x0000000005 = .ok .flip ∧
  decode .w16 0x0000003106 = .ok (.addByte 0x31) ∧
  decode .w16 0x0000800502 = .ok (.setPoly 0x8005) ∧
  decode .w16 0x0000FFFF04 = .ok (.setSeed 0xFFFF) ∧
  decode .w16 0xFFFF102107 = .ok (.initRaw 0x1021 .forward 0xFFFF) ∧
  decode .w16 0x0000000618 = .ok (.initName 6 .reflected 0) ∧
  decode .w8 0x000003 = .ok (.setEnd .forward) ∧
  decode .w8 0x000013 = .ok (.setEnd .reflected) ∧
  decode .w8 0x00FF06 = .ok (.addByte 0xFF) ∧
  decode .w32 0xFFFFFFFF0000000018 = .ok (.initName 0 .reflected 0xFFFFFFFF) ∧
  decode .w32 0x00000000FFFFFFFF04 = .ok (.setSeed 0xFFFFFFFF) ∧
  decode .w16 0x0000000000 = .error (.reservedOpcode 0x00) ∧
  decode .w16 0x0000003126 = .error (.reservedBits 0x26) ∧
  decode .w16 0x0000000009 = .error (.reservedOpcode 0x09) ∧
  decode .w16 0x1234AB3116 = .ok (.addByte 0x31)

/-- Every well-formed instruction, at every width and with every operand its word admits, is read back from its word. -/
def Obligations.DecodeOfEncodeIsTheInstruction : Prop :=
  ∀ (w : Width) (i : Instr), i.WellFormed w → decode w (encode w i) = .ok i

/-- What the decoder reads has operands that fit their fields, and the assembler's word for it (unused fields 0, R78) is read
as the same instruction. -/
def Obligations.DecodedInstructionsAreWellFormed : Prop :=
  ∀ (w : Width) (cmd : Command w) (i : Instr), decode w cmd = .ok i → i.WellFormed w ∧ decode w (encode w i) = .ok i

/-- R77: decoding by the control byte alone: with `mask = 0xEF`, a word encodes the operation with opcode `k` exactly when
`ctl & 0xEF = k`, and then with the operand fields the rule gives; every other word is illegal. -/
def Obligations.DecodeIsByMaskedControlByte : Prop :=
  ∀ (w : Width) (cmd : Command w),
    let ctl := ctlOf cmd
    let k := (ctl &&& 0xEF).toNat
    let e := if ctl.getLsbD 4 then Endian.reflected else Endian.forward
    let a := BitVec.ofNat 32 (cmd.toNat / 2 ^ 8 % 2 ^ w.bits)
    let b := BitVec.ofNat 32 (cmd.toNat / 2 ^ (w.bits + 8) % 2 ^ w.bits)
    (k = 1 → decode w cmd = .ok .reset) ∧
    (k = 2 → decode w cmd = .ok (.setPoly a)) ∧
    (k = 3 → decode w cmd = .ok (.setEnd e)) ∧
    (k = 4 → decode w cmd = .ok (.setSeed a)) ∧
    (k = 5 → decode w cmd = .ok .flip) ∧
    (k = 6 → decode w cmd = .ok (.addByte (BitVec.ofNat 8 (cmd.toNat / 2 ^ 8 % 2 ^ 8)))) ∧
    (k = 7 → decode w cmd = .ok (.initRaw a e b)) ∧
    (k = 8 → decode w cmd = .ok (.initName a e b)) ∧
    (k = 0 ∨ 8 < k → ∃ reason, decode w cmd = .error reason)

/-- R78: two words that agree on the reserved bits, the opcode and the fields their format uses decode to the same operation,
and so a ready engine gives the same state and response for both; the assembler's word has 0 in every unused field. -/
def Obligations.UnusedFieldsAreIgnored : Prop :=
  (∀ (s : State) (cmd cmd' : Command s.width) (later : List (HostEvent s.width)),
    ctlOf cmd &&& 0xEF = ctlOf cmd' &&& 0xEF →
    ((opOf (ctlOf cmd) = 3 ∨ opOf (ctlOf cmd) = 7 ∨ opOf (ctlOf cmd) = 8) → eOf (ctlOf cmd) = eOf (ctlOf cmd')) →
    ((opOf (ctlOf cmd) = 2 ∨ opOf (ctlOf cmd) = 4 ∨ opOf (ctlOf cmd) = 7 ∨ opOf (ctlOf cmd) = 8) → aOf cmd = aOf cmd') →
    (opOf (ctlOf cmd) = 6 → (aOf cmd).setWidth 8 = (aOf cmd').setWidth 8) →
    ((opOf (ctlOf cmd) = 7 ∨ opOf (ctlOf cmd) = 8) → bOf cmd = bOf cmd') →
    (∀ i, decode s.width cmd = .ok i ↔ decode s.width cmd' = .ok i) ∧
    (s.engine.busy = false →
      step { s with input := .command cmd :: later } = step { s with input := .command cmd' :: later })) ∧
  (∀ (w : Width) (i : Instr), i.WellFormed w →
    ((i = .reset ∨ i = .flip) → encode w i = BitVec.ofNat _ i.opcode.toNat) ∧
    (∀ v, (i = .setPoly v ∨ i = .setSeed v) →
      eOf (ctlOf (encode w i)) = .forward ∧ bOf (encode w i) = 0) ∧
    (∀ e, i = .setEnd e → aOf (encode w i) = 0 ∧ bOf (encode w i) = 0) ∧
    (∀ byte, i = .addByte byte →
      eOf (ctlOf (encode w i)) = .forward ∧ (aOf (encode w i)).toNat = byte.toNat ∧ bOf (encode w i) = 0))

/-- R79: a word is illegal exactly when its reserved bits are not 000 or its opcode is reserved; a ready engine given one sets
`ERR.ILLCMD`, answers `ILLEGAL_COMMAND` and changes nothing else; the all-zero word is illegal; 16 control bytes are legal and
240 illegal. -/
def Obligations.IllegalWordsAreExactlyTheReservedOnes : Prop :=
  (∀ (w : Width) (cmd : Command w),
    (∃ reason, decode w cmd = .error reason) ↔
      rsvOf (ctlOf cmd) ≠ 0 ∨ opOf (ctlOf cmd) = 0 ∨ 9 ≤ (opOf (ctlOf cmd)).toNat) ∧
  (∀ (s : State) (cmd : Command s.width) (later : List (HostEvent s.width)),
    s.engine.busy = false → s.input = .command cmd :: later →
    (rsvOf (ctlOf cmd) ≠ 0 ∨ opOf (ctlOf cmd) = 0 ∨ 9 ≤ (opOf (ctlOf cmd)).toNat) →
    step s = .next { width := s.width,
                     engine := { s.engine with errIllCmd := true, rsp := some .illegalCommand },
                     input := later }) ∧
  (∀ w : Width, ∃ reason, decode w (0 : Command w) = .error reason) ∧
  (∀ w : Width,
    ((List.range 256).countP fun c => (decode w (BitVec.ofNat _ c)).isOk) = 16 ∧
    ((List.range 256).countP fun c => !(decode w (BitVec.ofNat _ c)).isOk) = 240)

/-! ## The commands: result and completion -/

/-- R140, R141: `RESET` regenerates the table, rewinds `ACC` to `SEED` and `COUNT` to 0, changes nothing else and answers `OK`;
from a consistent engine that has consumed no byte nothing visible changes. -/
def Obligations.ResetCommandRewinds : Prop :=
  (∀ s : State, exec .reset s = .next (s.withEngine
    { s.engine with
      table := genTable s.engine.poly s.engine.endian
      acc := s.engine.seed
      count := 0
      rsp := some .ok })) ∧
  (∀ s : State, s.engine.TableConsistent → s.engine.acc = s.engine.seed → s.engine.count = 0 →
    exec .reset s = .next (s.withEngine { s.engine with rsp := some .ok }))

/-- R142: `SET_POLY` with a different value stores it as given and calls `Reset()` with the new `POLY`; with the value held it
changes nothing but the response. Any operand, 0 included, is legal. -/
def Obligations.SetPolyStoresAndResets : Prop :=
  ∀ (s : State) (v : Operand),
    exec (.setPoly v) s =
      if v.setWidth s.width.bits = s.engine.poly then .next (s.withEngine { s.engine with rsp := some .ok })
      else .next (s.withEngine
        { s.engine with
          poly := v.setWidth s.width.bits
          table := genTable (v.setWidth s.width.bits) s.engine.endian
          acc := s.engine.seed
          count := 0
          rsp := some .ok })

/-- R143: `SET_END` with a different mode stores it and calls `Reset()`; `POLY` is not reversed. With the mode held it changes
nothing but the response. -/
def Obligations.SetEndStoresAndResets : Prop :=
  ∀ (s : State) (mode : Endian),
    exec (.setEnd mode) s =
      if mode = s.engine.endian then .next (s.withEngine { s.engine with rsp := some .ok })
      else .next (s.withEngine
        { s.engine with
          endian := mode
          table := genTable s.engine.poly mode
          acc := s.engine.seed
          count := 0
          rsp := some .ok })

/-- R144: `SET_SEED` with a different value stores it and calls `Reset()`, so that `ACC` takes the new seed; the table of a
consistent engine keeps its contents. With the value held it changes nothing but the response, so it does not rewind. -/
def Obligations.SetSeedStoresAndResets : Prop :=
  ∀ (s : State) (v : Operand),
    (exec (.setSeed v) s =
      if v.setWidth s.width.bits = s.engine.seed then .next (s.withEngine { s.engine with rsp := some .ok })
      else .next (s.withEngine
        { s.engine with
          seed := v.setWidth s.width.bits
          table := genTable s.engine.poly s.engine.endian
          acc := v.setWidth s.width.bits
          count := 0
          rsp := some .ok })) ∧
    (s.engine.TableConsistent → v.setWidth s.width.bits ≠ s.engine.seed →
      exec (.setSeed v) s = .next (s.withEngine
        { s.engine with
          seed := v.setWidth s.width.bits
          acc := v.setWidth s.width.bits
          count := 0
          rsp := some .ok }))

/-- R145: `FLIP` reverses the old `POLY`, toggles the old `END` and always calls `Reset()`; `SEED` is neither reversed nor
changed. -/
def Obligations.FlipReversesAndToggles : Prop :=
  (∀ (s : State) (poly : Word s.width) (mode mode' : Endian),
    (∀ k, k < s.width.bits → poly.getLsbD k = s.engine.poly.getLsbD (s.width.bits - 1 - k)) →
    s.engine.endian = mode → mode' ≠ mode →
    exec .flip s = .next (s.withEngine
      { s.engine with
        poly := poly
        endian := mode'
        table := genTable poly mode'
        acc := s.engine.seed
        count := 0
        rsp := some .ok })) ∧
  (∀ s : State, ∃ e, exec .flip s = .next (s.withEngine e))

/-- R121, R123: `ADD_BYTE` updates `ACC` with the engine's own table and mode, adds 1 to `COUNT` modulo `2^64`, answers `OK` and
changes nothing else. -/
def Obligations.AddByteUpdatesAccAndCount : Prop :=
  ∀ (s : State) (byte : Byte), ∃ c : BitVec 64,
    exec (.addByte byte) s = .next (s.withEngine
      { s.engine with
        acc := addByte s.engine.acc s.engine.table byte s.engine.endian
        count := c
        rsp := some .ok }) ∧
    c.toNat = (s.engine.count.toNat + 1) % 2 ^ 64

/-- R160: `INIT_RAW` stores its three operands as given and calls `Reset()`, whatever the engine held; the error bits stay. -/
def Obligations.InitRawConstructs : Prop :=
  ∀ (s : State) (poly : Operand) (mode : Endian) (seed : Operand),
    exec (.initRaw poly mode seed) s = .next (s.withEngine
      { s.engine with
        poly := poly.setWidth s.width.bits
        endian := mode
        seed := seed.setWidth s.width.bits
        table := genTable (poly.setWidth s.width.bits) mode
        acc := seed.setWidth s.width.bits
        count := 0
        rsp := some .ok })

/-- R161: `INIT_NAME` with an index inside the catalog constructs from the catalog's constant, unchanged for Reflected and
reversed for Forward (R165); with an index outside it raises `InvalidConfiguration` and changes nothing else, the mode and
seed operands included. -/
def Obligations.InitNameConstructsOrRaises : Prop :=
  (∀ (s : State) (name : Operand) (mode : Endian) (seed : Operand) (entry : String × Word s.width),
    (catalog s.width)[name.toNat]? = some entry →
    exec (.initName name mode seed) s = .next (s.withEngine
      { s.engine with
        poly := if mode = .reflected then entry.2 else rev entry.2
        endian := mode
        seed := seed.setWidth s.width.bits
        table := genTable (if mode = .reflected then entry.2 else rev entry.2) mode
        acc := seed.setWidth s.width.bits
        count := 0
        rsp := some .ok })) ∧
  (∀ (s : State) (name : Operand) (mode : Endian) (seed : Operand),
    (catalog s.width).length ≤ name.toNat →
    exec (.initName name mode seed) s = .next (s.withEngine
      { s.engine with errInvCfg := true, rsp := some .invalidConfiguration }))

/-- R191: `InvalidConfiguration` is raised by `INIT_NAME` only, exactly when its index is not below `N_NAMES(W)`; it sets
`ERR.INVCFG`, answers `INVALID_CONFIGURATION`, and leaves every other register, the table and `ERR.ILLCMD` as they were. -/
def Obligations.InvalidConfigurationOnlyFromInitName : Prop :=
  ∀ (s : State) (i : Instr), ∃ e : Engine s.width, exec i s = .next (s.withEngine e) ∧
    (e.rsp = some .invalidConfiguration ↔ ∃ name mode seed, i = .initName name mode seed ∧ nNames s.width ≤ name.toNat) ∧
    (e.rsp = some .invalidConfiguration → e = { s.engine with errInvCfg := true, rsp := some .invalidConfiguration }) ∧
    e.rsp ≠ some .illegalCommand

/-- R163: the contents of the three catalogs, with the Forward form of every constant. -/
def Obligations.CatalogHoldsTheSourceConstants : Prop :=
  (catalog .w8).map (fun entry => (entry.1, entry.2, rev entry.2)) =
    [("AUTOSAR", 0xF4#8, 0x2F#8), ("Bluetooth", 0xE5#8, 0xA7#8), ("CCITT", 0xE0#8, 0x07#8), ("Dallas", 0x8C#8, 0x31#8),
     ("DARC", 0x9C#8, 0x39#8), ("DVB", 0xAB#8, 0xD5#8), ("GSM_B", 0x92#8, 0x49#8), ("Maxim", 0x8C#8, 0x31#8),
     ("SAE_J1850", 0xB8#8, 0x1D#8), ("WCDMA", 0xD9#8, 0x9B#8)] ∧
  (catalog .w16).map (fun entry => (entry.1, entry.2, rev entry.2)) =
    [("ARINC", 0xD405#16, 0xA02B#16), ("CCITT", 0x8404#16, 0x2021#16), ("CDMA2000", 0xE613#16, 0xC867#16),
     ("Chakravarty", 0xA8F4#16, 0x2F15#16), ("DECT", 0x91A0#16, 0x0589#16), ("DNP", 0xA6BC#16, 0x3D65#16),
     ("IBM", 0xA001#16, 0x8005#16), ("OpenSafety_A", 0xAC9A#16, 0x5935#16), ("OpenSafety_B", 0xDAAE#16, 0x755B#16),
     ("Profibus", 0xF3B8#16, 0x1DCF#16), ("T10", 0xEDD1#16, 0x8BB7#16)] ∧
  (catalog .w32).map (fun entry => (entry.1, entry.2, rev entry.2)) =
    [("Castagnoli", 0x82F63B78#32, 0x1EDC6F41#32), ("ISO_3309", 0xEDB88320#32, 0x04C11DB7#32),
     ("Koopman", 0xEB31D82E#32, 0x741B8CD7#32), ("Koopman_2", 0x992C1A4C#32, 0x32583499#32),
     ("Q", 0xD5828281#32, 0x814141AB#32)] ∧
  nNames .w8 = 10 ∧ nNames .w16 = 11 ∧ nNames .w32 = 5

/-! ## Laws of the commands -/

/-- R146: a setter given the value the register holds changes no register and no table word, and answers `OK`. -/
def Obligations.SettingTheSameValueIsANoOp : Prop :=
  ∀ (s : State) (i : Instr),
    (∃ v : Operand, i = .setPoly v ∧ v.setWidth s.width.bits = s.engine.poly) ∨
    (∃ mode, i = .setEnd mode ∧ mode = s.engine.endian) ∨
    (∃ v : Operand, i = .setSeed v ∧ v.setWidth s.width.bits = s.engine.seed) →
    exec i s = .next (s.withEngine { s.engine with rsp := some .ok })

/-- R148: a setter given a different value, every `FLIP`, `INIT_RAW`, `RESET` and every `INIT_NAME` with a valid index leave
`ACC` equal to the (possibly new) seed, `COUNT` 0, and a table that matches the new configuration. -/
def Obligations.ChangingTheConfigurationRewinds : Prop :=
  ∀ (s : State) (i : Instr),
    (∃ v : Operand, i = .setPoly v ∧ v.setWidth s.width.bits ≠ s.engine.poly) ∨
    (∃ mode, i = .setEnd mode ∧ mode ≠ s.engine.endian) ∨
    (∃ v : Operand, i = .setSeed v ∧ v.setWidth s.width.bits ≠ s.engine.seed) ∨
    i = .flip ∨ i = .reset ∨ (∃ poly mode seed, i = .initRaw poly mode seed) ∨
    (∃ name mode seed, i = .initName name mode seed ∧ name.toNat < nNames s.width) →
    ∃ e : Engine s.width, exec i s = .next (s.withEngine e) ∧
      e.acc = e.seed ∧ e.count = 0 ∧ e.TableConsistent ∧ e.rsp = some .ok

/-- R147: after any sequence of commands `RESET` leaves `ACC = SEED` and `COUNT = 0`, and a second `RESET` changes nothing. -/
def Obligations.ResetIsIdempotentAfterAnyCommands : Prop :=
  ∀ (s : State) (commands : List Instr), ∃ e : Engine s.width,
    execSeq (commands ++ [.reset]) s = .next (s.withEngine e) ∧ e.acc = e.seed ∧ e.count = 0 ∧
    execSeq (commands ++ [.reset, .reset]) s = .next (s.withEngine e)

/-- R149: two `FLIP`s return `POLY` and `END`, and the table of a consistent engine; `ACC` is the seed and `COUNT` is 0. -/
def Obligations.TwoFlipsRestoreThePolynomial : Prop :=
  ∀ s : State, ∃ e : Engine s.width, execSeq [.flip, .flip] s = .next (s.withEngine e) ∧
    e.poly = s.engine.poly ∧ e.endian = s.engine.endian ∧ e.seed = s.engine.seed ∧ e.acc = s.engine.seed ∧ e.count = 0 ∧
    (s.engine.TableConsistent → e.table = s.engine.table)

/-- R151: the three setters in a row end with the three values in every case; they rewind when one of them differed, and
change nothing but the response when all three were held. -/
def Obligations.ThreeSettersSetTheConfiguration : Prop :=
  ∀ (s : State) (p : Operand) (mode : Endian) (seed : Operand), ∃ e : Engine s.width,
    execSeq [.setPoly p, .setEnd mode, .setSeed seed] s = .next (s.withEngine e) ∧
    e.poly = p.setWidth s.width.bits ∧ e.endian = mode ∧ e.seed = seed.setWidth s.width.bits ∧
    (p.setWidth s.width.bits ≠ s.engine.poly ∨ mode ≠ s.engine.endian ∨ seed.setWidth s.width.bits ≠ s.engine.seed →
      e.acc = e.seed ∧ e.count = 0) ∧
    (p.setWidth s.width.bits = s.engine.poly ∧ mode = s.engine.endian ∧ seed.setWidth s.width.bits = s.engine.seed →
      e = { s.engine with rsp := some .ok })

/-- Constructing from a name in Reflected mode and flipping gives the engine that constructing from the same name in Forward
mode gives: the two operations that keep the logical polynomial agree (spec/10_state.md R34). -/
def Obligations.FlipAfterReflectedNameIsForwardName : Prop :=
  ∀ (s : State) (name seed : Operand), name.toNat < nNames s.width →
    (∃ e : Engine s.width, exec (.initName name .forward seed) s = .next (s.withEngine e) ∧ e.endian = .forward) ∧
    execSeq [.initName name .reflected seed, .flip] s = exec (.initName name .forward seed) s ∧
    execSeq [.initName name .forward seed, .flip] s = exec (.initName name .reflected seed) s

/-- R162: `INIT_DEF` with both operands defaulted gives the hardware-reset state apart from `ERR` (and the response it answers,
and the fields below the transaction level); with an explicit mode and seed the default polynomial is stored as it stands. -/
def Obligations.InitDefIsTheResetConfiguration : Prop :=
  (∀ s : State, exec (initDefOp s.width) s = .next (s.withEngine
    { Engine.reset s.width with
      errInvCfg := s.engine.errInvCfg
      errIllCmd := s.engine.errIllCmd
      busy := s.engine.busy
      genIdx := s.engine.genIdx
      genPhase := s.engine.genPhase
      pending := s.engine.pending
      freeCount := s.engine.freeCount
      rsp := some .ok })) ∧
  (∀ (s : State) (mode : Endian) (seed : Operand), ∃ e : Engine s.width,
    exec (initDefOp s.width mode seed) s = .next (s.withEngine e) ∧
    e.poly = defaultPoly s.width ∧ e.endian = mode ∧ e.seed = seed.setWidth s.width.bits)

/-- R124, R125: `ADD_BYTES` is the left fold of `AddByte` over the bytes in order, `COUNT` grows by their number modulo `2^64`,
the response is `OK` after every byte (the statement holds of every first part of a sequence), nothing else changes, and
splitting the sequence anywhere gives the same state. -/
def Obligations.BulkUpdateEqualsIncrementalUpdate : Prop :=
  ∀ (s : State) (xs ys : List Byte),
    (∃ e : Engine s.width, execSeq (addBytesOps xs) s = .next (s.withEngine e) ∧
      e.acc = feed s.engine.acc s.engine.table s.engine.endian xs ∧
      e.count.toNat = (s.engine.count.toNat + xs.length) % 2 ^ 64 ∧
      e = { s.engine with acc := e.acc, count := e.count, rsp := if xs = [] then s.engine.rsp else some .ok }) ∧
    (∀ t : State, execSeq (addBytesOps xs) s = .next t →
      execSeq (addBytesOps (xs ++ ys)) s = execSeq (addBytesOps ys) t)

/-- R32: the accumulator's meaning is kept by every sequence of commands: `COUNT` counts the bytes fed since the last reset
(modulo `2^64`) and `ACC` is their CRC with the current seed, table and mode; it holds after hardware reset of no bytes. -/
def Obligations.AccumulatorIsTheCrcOfTheBytesSinceReset : Prop :=
  (∀ (s : State) (commands : List Instr) (bytes : List Byte), s.engine.AccountsFor bytes →
    ∃ e : Engine s.width, execSeq commands s = .next (s.withEngine e) ∧
      e.AccountsFor (bytesAfterSeq commands s.engine bytes)) ∧
  (∀ w : Width, (State.resetOf w).engine.AccountsFor [])

/-! ## Frames and what feeds back into nothing -/

/-- Every command answers a next state that keeps every column of spec/10_state.md R30 that its row leaves alone (of the table,
every word; and a command that does not call `Reset()` writes no table word), and `BUSY` and `GEN_IDX`, which `Exec` does not
write (spec/10_state.md R28). That it keeps the width, the host's presentations and the generator's phase, the response owed and
the counter of free values too is said of fields of the model's own, its choice (log entries 1, 3, 5 and 6). -/
def Obligations.CommandsWriteOnlyTheirColumns : Prop :=
  ∀ (s : State) (i : Instr), ∃ e : Engine s.width, exec i s = .next (s.withEngine e) ∧
    (∀ c : Column, c ∉ mayWrite i → c.Same e s.engine) ∧
    (s.engine.callsReset i = false → ∀ k : Byte, e.table.read k = s.engine.table.read k) ∧
    e.busy = s.engine.busy ∧ e.genIdx = s.engine.genIdx ∧ e.genPhase = s.engine.genPhase ∧
    e.pending = s.engine.pending ∧ e.freeCount = s.engine.freeCount

/-- No command reads `COUNT` into anything else: with another count, every command gives the same engine but for the count
(spec/10_state.md R25, spec/60_exceptions.md R200). -/
def Obligations.CountFeedsIntoNothing : Prop :=
  ∀ (s : State) (i : Instr) (c : BitVec 64), ∃ (e : Engine s.width) (c' : BitVec 64),
    exec i s = .next (s.withEngine e) ∧
    exec i (s.withEngine { s.engine with count := c }) = .next (s.withEngine { e with count := c' })

/-- R197: the sticky bits change the behaviour of no later command; a further error sets its bit, no command clears one. -/
def Obligations.StickyBitsFeedIntoNothing : Prop :=
  ∀ (s : State) (i : Instr) (x y : Bool), ∃ e : Engine s.width,
    exec i s = .next (s.withEngine e) ∧
    exec i (s.withEngine { s.engine with errInvCfg := x, errIllCmd := y }) =
      .next (s.withEngine { e with errInvCfg := x || raisesInvalid s.width i, errIllCmd := y })

/-- R28: `Exec` neither reads nor writes `BUSY` and `GEN_IDX`. -/
def Obligations.ExecIgnoresBusyAndGenIdx : Prop :=
  ∀ (s : State) (i : Instr) (b : Bool) (g : Byte), ∃ e : Engine s.width,
    exec i s = .next (s.withEngine e) ∧ e.busy = s.engine.busy ∧ e.genIdx = s.engine.genIdx ∧
    exec i (s.withEngine { s.engine with busy := b, genIdx := g }) = .next (s.withEngine { e with busy := b, genIdx := g })

/-! ## The step -/

/-- A step runs the decoded instruction: a ready engine to which the host presents a word that decodes to `i` takes the step
that `exec i` gives, the presentation being used up (a list of presentations is the model's choice, log entry 3). -/
def Obligations.StepRunsTheDecodedCommand : Prop :=
  ∀ (s : State) (cmd : Command s.width) (later : List (HostEvent s.width)) (i : Instr),
    s.engine.busy = false → s.input = .command cmd :: later → decode s.width cmd = .ok i →
    step s = exec i { s with input := later }

/-- R205: `Exec` is total and there is no stuck state: from every state a step answers a next state. -/
def Obligations.EveryStepAnswersANextState : Prop :=
  ∀ s : State, ∃ e : Engine s.width, step s = .next { width := s.width, engine := e, input := s.input } ∨
    ∃ event, s.input = event :: s.input.tail ∧ step s = .next { width := s.width, engine := e, input := s.input.tail }

/-- R190: a ready engine that accepts a word answers exactly one response: `ILLEGAL_COMMAND` for a word that encodes no
operation, `INVALID_CONFIGURATION` for an `INIT_NAME` outside the catalog, `OK` for every other; code 3 is never produced. -/
def Obligations.EveryAcceptedWordAnswersOneResponse : Prop :=
  (∀ (s : State) (cmd : Command s.width) (later : List (HostEvent s.width)),
    s.engine.busy = false → s.input = .command cmd :: later →
    ∃ e : Engine s.width, step s = .next { width := s.width, engine := e, input := later } ∧
      ((∃ reason, decode s.width cmd = .error reason) → e.rsp = some .illegalCommand) ∧
      (∀ i, decode s.width cmd = .ok i →
        e.rsp = some (if raisesInvalid s.width i then .invalidConfiguration else .ok))) ∧
  Response.code .ok = 0 ∧ Response.code .invalidConfiguration = 1 ∧ Response.code .illegalCommand = 2

/-- R192: an illegal word sets `ERR.ILLCMD`, answers `ILLEGAL_COMMAND` and leaves everything else, `ERR.INVCFG` included. -/
def Obligations.IllegalWordOnlySetsItsStickyBit : Prop :=
  ∀ (s : State) (cmd : Command s.width) (later : List (HostEvent s.width)) (reason : Illegal),
    s.engine.busy = false → s.input = .command cmd :: later → decode s.width cmd = .error reason →
    step s = .next { width := s.width,
                     engine := { s.engine with errIllCmd := true, rsp := some .illegalCommand },
                     input := later }

/-- R27: each sticky bit is set by its error and by nothing else, no command clears it, hardware reset clears both, and both
are 0 after reset. -/
def Obligations.OnlyHardwareResetClearsTheStickyBits : Prop :=
  (∀ (s : State) (cmd : Command s.width) (later : List (HostEvent s.width)),
    s.engine.busy = false → s.input = .command cmd :: later →
    ∃ e : Engine s.width, step s = .next { width := s.width, engine := e, input := later } ∧
      e.errInvCfg = (s.engine.errInvCfg ||
        match decode s.width cmd with | .ok i => raisesInvalid s.width i | .error _ => false) ∧
      e.errIllCmd = (s.engine.errIllCmd || match decode s.width cmd with | .ok _ => false | .error _ => true)) ∧
  (∀ (s : State) (later : List (HostEvent s.width)), s.engine.busy = false → s.input = .hardwareReset :: later →
    ∃ e : Engine s.width, step s = .next { width := s.width, engine := e, input := later } ∧
      e.errInvCfg = false ∧ e.errIllCmd = false) ∧
  (∀ w : Width, (State.resetOf w).engine.errInvCfg = false ∧ (State.resetOf w).engine.errIllCmd = false)

/-- R210, R212: hardware reset leaves the default configuration whatever was there before, with no response; a command that it
cuts short leaves nothing behind. `GEN_IDX` and the counter of its free values are left open (log entry 5). -/
def Obligations.HardwareResetLoadsTheDefaults : Prop :=
  ∀ (s : State) (event : HostEvent s.width) (later : List (HostEvent s.width)),
    s.engine.busy = false → s.input = event :: later →
    (event = .hardwareReset ∨ ∃ cmd, event = .commandThenReset cmd) →
    ∃ (g : Byte) (n : Nat), step s = .next
      { width := s.width
        engine :=
          { poly := defaultPoly s.width
            endian := .reflected
            seed := 0
            acc := 0
            count := 0
            table := genTable (defaultPoly s.width) .reflected
            errInvCfg := false
            errIllCmd := false
            busy := false
            genIdx := g
            genPhase := .idle
            pending := none
            rsp := none
            freeCount := n }
        input := later }

/-- R40: the reset values, for each width (`GEN_IDX` apart, which the rule leaves unspecified). -/
def Obligations.ResetValuesAreTheSpecs : Prop :=
  (State.resetOf .w8).engine.poly = 0xE0#8 ∧ (State.resetOf .w16).engine.poly = 0xA001#16 ∧
  (State.resetOf .w32).engine.poly = 0xEDB88320#32 ∧
  (State.resetOf .w8).engine.table = genTable 0xE0#8 .reflected ∧
  (State.resetOf .w16).engine.table = genTable 0xA001#16 .reflected ∧
  (State.resetOf .w32).engine.table = genTable 0xEDB88320#32 .reflected ∧
  (∀ w : Width,
    (State.resetOf w).engine.endian = .reflected ∧ (State.resetOf w).engine.seed = 0 ∧
    (State.resetOf w).engine.acc = 0 ∧ (State.resetOf w).engine.count = 0 ∧
    (State.resetOf w).engine.errInvCfg = false ∧ (State.resetOf w).engine.errIllCmd = false ∧
    (State.resetOf w).engine.busy = false) ∧
  ∃ w : Width, State.reset = State.resetOf w

/-- With nothing presented a ready engine stays as it is; only the response, shown for one step, is gone
(spec/60_exceptions.md R204, spec/30_encoding.md R70; an empty list as an idle host is the model's choice, log entry 3). -/
def Obligations.IdleEngineIsStable : Prop :=
  ∀ s : State, s.engine.busy = false → s.input = [] →
    step s = .next (s.withEngine { s.engine with rsp := none })

/-- The words of well-formed instructions, presented one after the other to a ready engine, run as those instructions run one
after the other: as many steps of the host's machine as there are words. -/
def Obligations.RunOfEncodedCommandsIsTheirSequence : Prop :=
  ∀ (s : State) (commands : List Instr) (later : List (HostEvent s.width)),
    s.engine.busy = false → (∀ i ∈ commands, i.WellFormed s.width) →
    s.input = commands.map (fun i => .command (encode s.width i)) ++ later →
    (∃ e : Engine s.width,
      execSeq commands { s with input := later } = .next { width := s.width, engine := e, input := later }) ∧
    Host.Core.run core commands.length s = execSeq commands { s with input := later }

/-! ## Invariants -/

/-- R31: the table matches `POLY` and `END` whenever no command is in progress. Every step from a coherent state (which a step
or a reset leaves, and every clock edge keeps) ends ready, with a consistent table. -/
def Obligations.EveryStepKeepsTheTableConsistent : Prop :=
  ∀ s t : State, s.engine.Coherent → step s = .next t → t.engine.Coherent ∧ t.engine.Settled

/-- The invariant holds after reset, at every width. -/
def Obligations.ResetStateIsSettled : Prop :=
  (∀ w : Width, (State.resetOf w).engine.Coherent ∧ (State.resetOf w).engine.Settled) ∧ State.reset.engine.Settled

/-- Every clock edge keeps coherence, whatever the ports carry: while the generator runs the words below `GEN_IDX` are right
(spec/20_memory.md R63), when it does not the whole table is, and a ready engine owes nothing. The schedule is the model's
choice (log entry 6). -/
def Obligations.EveryClockEdgeKeepsCoherence : Prop :=
  ∀ (w : Width) (p : PortIn w) (e : Engine w), e.Coherent → (e.edge p).Coherent

/-! ## Below the transaction level -/

/-- The handshake refines the transaction: a word accepted by a ready engine, run clock edge by clock edge with the table
written word by word until the engine is ready again, leaves the engine that one step leaves, but for the hidden `GEN_IDX`
(spec/00_scope.md R11, spec/30_encoding.md R71, spec/40_table_generation.md R103). The schedule is the model's choice (log
entry 6). -/
def Obligations.ClockedEngineRefinesTheTransaction : Prop :=
  ∀ (s : State) (cmd : Command s.width) (later : List (HostEvent s.width)),
    s.engine.Quiescent → s.input = .command cmd :: later →
    ∃ e : Engine s.width, step s = .next { width := s.width, engine := e, input := later } ∧
      ((s.engine.edge ⟨false, true, cmd⟩).drain).busy = false ∧
      ((s.engine.edge ⟨false, true, cmd⟩).drain).hideGenIdx = e.hideGenIdx

/-- From any state whatever, `rst` held for one or more edges makes the engine busy and silent, and once it is released the
engine comes to the state that the transaction-level hardware reset leaves, but for `GEN_IDX`
(spec/70_reset_and_hazards.md R210 to R212). The schedule is the model's choice (log entry 6). -/
def Obligations.ResetEdgesReachTheResetState : Prop :=
  ∀ (w : Width) (e : Engine w) (valid : Bool) (cmd : Command w) (n : Nat),
    ((Engine.edge ⟨true, valid, cmd⟩)^[n + 1] e).busy = true ∧
    ((Engine.edge ⟨true, valid, cmd⟩)^[n + 1] e).cmdReady = false ∧
    ((Engine.edge ⟨true, valid, cmd⟩)^[n + 1] e).rspValid = false ∧
    (((Engine.edge ⟨true, valid, cmd⟩)^[n + 1] e).drain).busy = false ∧
    (((Engine.edge ⟨true, valid, cmd⟩)^[n + 1] e).drain).hideGenIdx = e.hardwareReset.hideGenIdx

/-- While the engine is busy and `rst` is low the command port is ignored, and no response is shown before the engine is ready
again (spec/30_encoding.md R71). The schedule is the model's choice (log entry 6). -/
def Obligations.BusyEngineIgnoresTheCommandPort : Prop :=
  ∀ (w : Width) (e : Engine w) (p q : PortIn w), e.busy = true → p.rst = false → q.rst = false →
    e.edge p = e.edge q ∧ ((e.edge p).rspValid = true → (e.edge p).cmdReady = true)

/-- R71: an accepted word makes the engine busy until it has completed; then, after at most 257 internal actions (a bound of this
model's schedule, log entry 6), the response is shown for exactly one edge, and it is the one the transaction gives. -/
def Obligations.AcceptedWordAnswersAfterBoundedEdges : Prop :=
  ∀ (w : Width) (e : Engine w) (cmd : Command w), e.busy = false →
    ∃ n, 1 ≤ n ∧ n ≤ 257 ∧
      (∀ k, k < n → ((e.edge ⟨false, true, cmd⟩).quietEdges k).cmdReady = false ∧
        ((e.edge ⟨false, true, cmd⟩).quietEdges k).rspValid = false) ∧
      ((e.edge ⟨false, true, cmd⟩).quietEdges n).cmdReady = true ∧
      ((e.edge ⟨false, true, cmd⟩).quietEdges n).rsp = (e.execWord cmd).rsp ∧
      ((e.edge ⟨false, true, cmd⟩).quietEdges n).rspValid = true ∧
      ((e.edge ⟨false, true, cmd⟩).quietEdges (n + 1)).rspValid = false

/-- From every state whatever the engine becomes ready again within 257 internal actions (a bound of this model's schedule, log entry 6): the
liveness fact of spec/70_reset_and_hazards.md R223. -/
def Obligations.EveryBusyEngineBecomesReady : Prop :=
  ∀ (w : Width) (e : Engine w), e.drain.busy = false

/-- The generator as a sub-block (spec/40_table_generation.md R104), from any state of it. On the cycles after a `gen_start`, with `gen_poly` and `gen_end`
held, it issues exactly 256 writes, `GenEntry(gen_poly, gen_end, i)` at address `i` for `i` = 0 to 255 in ascending order, then
pulses `gen_done` for one cycle, then drives nothing; only a table word that it writes changes, and at the end the table is
`GenTable`. No state of an earlier run, and no value of the table, has any part in this. The order of writes and `gen_done` is
R104's; that the writes begin on the cycle after `gen_start` and follow one another without gaps, and that `gen_done` comes on
the very next cycle, is the model's choice (log entry 6), and that address and data have no value on a cycle without a write is
its deduction (log entry 7). -/
def Obligations.GeneratorSubBlockRunsOnce : Prop :=
  ∀ (w : Width) (g : Generator) (start held : GenIn w.bits) (t : Table w.bits),
    start.genStart = true → held.genStart = false →
    let gen := fun k => (Generator.next held)^[k] (g.next start)
    let tbl := fun k => (List.range k).foldl (fun t j => t.clocked ((gen j).out held)) t
    (∀ k, k < 256 →
      (gen k).genIdx = BitVec.ofNat 8 k ∧
      (gen k).out held =
        ⟨true, some (BitVec.ofNat 8 k), some (genEntry held.genPoly held.genEnd (BitVec.ofNat 8 k)), false⟩ ∧
      ∀ j : Byte, (tbl (k + 1)).read j =
        if j = BitVec.ofNat 8 k then genEntry held.genPoly held.genEnd j else (tbl k).read j) ∧
    (gen 256).out held = ⟨false, none, none, true⟩ ∧
    (∀ k, 256 < k → (gen k).phase = .idle ∧ (gen k).out held = ⟨false, none, none, false⟩) ∧
    (∀ k, 256 ≤ k → tbl k = genTable held.genPoly held.genEnd)

/-- The generator inside the engine (spec/40_table_generation.md R103, R104): an edge at which `gen_start` is high begins a run
at index 0, whatever the engine was doing; then, with `rst` low, the k-th edge writes the word of index `k`, in ascending order,
and no other; after 256 edges `gen_done` is high and the table is that of `POLY` and `END`; the next edge shows the response and
leaves the generator idle. The order is R104's; that an edge writes one word without gaps, that `gen_done` is high after exactly
256 edges, and that the response comes at the next is the model's choice (log entry 6), and that address and data have no value
on the cycle of `gen_done` is its deduction (log entry 7). -/
def Obligations.GeneratorWritesEveryWordInOrder : Prop :=
  (∀ (w : Width) (e : Engine w) (p : PortIn w), e.genStart p = true →
    (e.edge p).busy = true ∧ (e.edge p).genPhase = .writing ∧ (e.edge p).genIdx = 0) ∧
  (∀ (w : Width) (e : Engine w) (q : PortIn w), e.busy = true → e.genPhase = .writing → e.genIdx = 0 →
    (∀ k, k < 256 →
      (e.quietEdges k).genPhase = .writing ∧ (e.quietEdges k).genIdx = BitVec.ofNat 8 k ∧
      (e.quietEdges k).genOut q =
        ⟨true, some (BitVec.ofNat 8 k), some (genEntry e.poly e.endian (BitVec.ofNat 8 k)), false⟩ ∧
      ∀ j : Byte, (e.quietEdges (k + 1)).table.read j =
        if j = BitVec.ofNat 8 k then genEntry e.poly e.endian j else (e.quietEdges k).table.read j) ∧
    (e.quietEdges 256).genOut q = ⟨false, none, none, true⟩ ∧ (e.quietEdges 256).busy = true ∧
    (e.quietEdges 256).table = genTable e.poly e.endian ∧
    (e.quietEdges 257).busy = false ∧ (e.quietEdges 257).genPhase = .idle ∧ (e.quietEdges 257).rsp = e.pending ∧
    (e.quietEdges 257).table = genTable e.poly e.endian)

/-! ## Observation -/

/-- R72: on every cycle on which the engine is ready the observation ports equal the registers; on the others they have no value,
and `status_o[0]` is 1. -/
def Obligations.PortsShowTheRegistersWhenReady : Prop :=
  ∀ (w : Width) (e : Engine w),
    (e.ports.cmdReady = true →
      e.ports.polyO = some e.poly ∧ e.ports.seedO = some e.seed ∧ e.ports.endO = some (decide (e.endian = .reflected)) ∧
      e.ports.crcO = some e.acc ∧ e.ports.countO = some e.count ∧
      ∃ status : BitVec 3, e.ports.statusO = some status ∧ status.getLsbD 0 = false ∧
        status.getLsbD 1 = e.errInvCfg ∧ status.getLsbD 2 = e.errIllCmd) ∧
    (e.ports.cmdReady = false →
      e.ports.polyO = none ∧ e.ports.seedO = none ∧ e.ports.endO = none ∧ e.ports.crcO = none ∧ e.ports.countO = none ∧
      e.ports.statusO = none ∧ e.ports.statusBusy = true)

/-- R186: the rendering has exactly `W/4` characters, all of them lowercase hexadecimal digits, and reads back as the value,
most significant digit first; the rule's four examples. -/
def Obligations.RenderingIsPaddedLowercaseHex : Prop :=
  (∀ (w : Width) (v : Word w),
    (render w v).toList.length = w.bits / 4 ∧
    (∀ c ∈ (render w v).toList, c ∈ "0123456789abcdef".toList) ∧
    digitsValue 16 0 (render w v).toList = some v.toNat) ∧
  render .w16 0xBB3D = "bb3d" ∧ render .w8 0x07 = "07" ∧ render .w32 0x0376E6E7 = "0376e6e7" ∧ render .w16 0 = "0000"
end

