-- ==== Sys2Proof/Laws/State.lean ====
section
/-! SUPPORT. One lemma per field per update: the state, the shared operations and the byte update. -/

namespace Sys2Proof.Machine

variable {w : Width}

@[simp] theorem withEngine_width (s : State) (e : Engine s.width) : (s.withEngine e).width = s.width := rfl
@[simp] theorem withEngine_engine (s : State) (e : Engine s.width) : (s.withEngine e).engine = e := rfl
@[simp] theorem withEngine_input (s : State) (e : Engine s.width) : (s.withEngine e).input = s.input := rfl

/-! ## Giving a response -/

@[simp] theorem respond_poly (r : Response) (e : Engine w) : (e.respond r).poly = e.poly := rfl
@[simp] theorem respond_endian (r : Response) (e : Engine w) : (e.respond r).endian = e.endian := rfl
@[simp] theorem respond_seed (r : Response) (e : Engine w) : (e.respond r).seed = e.seed := rfl
@[simp] theorem respond_acc (r : Response) (e : Engine w) : (e.respond r).acc = e.acc := rfl
@[simp] theorem respond_count (r : Response) (e : Engine w) : (e.respond r).count = e.count := rfl
@[simp] theorem respond_table (r : Response) (e : Engine w) : (e.respond r).table = e.table := rfl
@[simp] theorem respond_errInvCfg (r : Response) (e : Engine w) : (e.respond r).errInvCfg = e.errInvCfg := rfl
@[simp] theorem respond_errIllCmd (r : Response) (e : Engine w) : (e.respond r).errIllCmd = e.errIllCmd := rfl
@[simp] theorem respond_busy (r : Response) (e : Engine w) : (e.respond r).busy = e.busy := rfl
@[simp] theorem respond_genIdx (r : Response) (e : Engine w) : (e.respond r).genIdx = e.genIdx := rfl
@[simp] theorem respond_genPhase (r : Response) (e : Engine w) : (e.respond r).genPhase = e.genPhase := rfl
@[simp] theorem respond_pending (r : Response) (e : Engine w) : (e.respond r).pending = e.pending := rfl
@[simp] theorem respond_rsp (r : Response) (e : Engine w) : (e.respond r).rsp = some r := rfl
@[simp] theorem respond_freeCount (r : Response) (e : Engine w) : (e.respond r).freeCount = e.freeCount := rfl

/-! ## Raising an error -/

@[simp] theorem raise_poly (k : ErrorKind) (e : Engine w) : (e.raise k).poly = e.poly := by cases k <;> rfl
@[simp] theorem raise_endian (k : ErrorKind) (e : Engine w) : (e.raise k).endian = e.endian := by cases k <;> rfl
@[simp] theorem raise_seed (k : ErrorKind) (e : Engine w) : (e.raise k).seed = e.seed := by cases k <;> rfl
@[simp] theorem raise_acc (k : ErrorKind) (e : Engine w) : (e.raise k).acc = e.acc := by cases k <;> rfl
@[simp] theorem raise_count (k : ErrorKind) (e : Engine w) : (e.raise k).count = e.count := by cases k <;> rfl
@[simp] theorem raise_table (k : ErrorKind) (e : Engine w) : (e.raise k).table = e.table := by cases k <;> rfl
@[simp] theorem raise_errInvCfg (k : ErrorKind) (e : Engine w) : (e.raise k).errInvCfg = (e.errInvCfg || k == .invalidConfiguration) := by cases k <;> simp [Engine.raise, Engine.setErr, Engine.respond]
@[simp] theorem raise_errIllCmd (k : ErrorKind) (e : Engine w) : (e.raise k).errIllCmd = (e.errIllCmd || k == .illegalCommand) := by cases k <;> simp [Engine.raise, Engine.setErr, Engine.respond]
@[simp] theorem raise_busy (k : ErrorKind) (e : Engine w) : (e.raise k).busy = e.busy := by cases k <;> rfl
@[simp] theorem raise_genIdx (k : ErrorKind) (e : Engine w) : (e.raise k).genIdx = e.genIdx := by cases k <;> rfl
@[simp] theorem raise_genPhase (k : ErrorKind) (e : Engine w) : (e.raise k).genPhase = e.genPhase := by cases k <;> rfl
@[simp] theorem raise_pending (k : ErrorKind) (e : Engine w) : (e.raise k).pending = e.pending := by cases k <;> rfl
@[simp] theorem raise_rsp (k : ErrorKind) (e : Engine w) : (e.raise k).rsp = some k.response := rfl
@[simp] theorem raise_freeCount (k : ErrorKind) (e : Engine w) : (e.raise k).freeCount = e.freeCount := by cases k <;> rfl

/-! ## The procedure Reset() -/

@[simp] theorem resetProc_poly (e : Engine w) : (e.resetProc).poly = e.poly := rfl
@[simp] theorem resetProc_endian (e : Engine w) : (e.resetProc).endian = e.endian := rfl
@[simp] theorem resetProc_seed (e : Engine w) : (e.resetProc).seed = e.seed := rfl
@[simp] theorem resetProc_acc (e : Engine w) : (e.resetProc).acc = e.seed := rfl
@[simp] theorem resetProc_count (e : Engine w) : (e.resetProc).count = 0 := rfl
@[simp] theorem resetProc_table (e : Engine w) : (e.resetProc).table = genTable e.poly e.endian := rfl
@[simp] theorem resetProc_errInvCfg (e : Engine w) : (e.resetProc).errInvCfg = e.errInvCfg := rfl
@[simp] theorem resetProc_errIllCmd (e : Engine w) : (e.resetProc).errIllCmd = e.errIllCmd := rfl
@[simp] theorem resetProc_busy (e : Engine w) : (e.resetProc).busy = e.busy := rfl
@[simp] theorem resetProc_genIdx (e : Engine w) : (e.resetProc).genIdx = e.genIdx := rfl
@[simp] theorem resetProc_genPhase (e : Engine w) : (e.resetProc).genPhase = e.genPhase := rfl
@[simp] theorem resetProc_pending (e : Engine w) : (e.resetProc).pending = e.pending := rfl
@[simp] theorem resetProc_rsp (e : Engine w) : (e.resetProc).rsp = e.rsp := rfl
@[simp] theorem resetProc_freeCount (e : Engine w) : (e.resetProc).freeCount = e.freeCount := rfl

/-! ## Hardware reset -/

@[simp] theorem hardwareReset_poly (e : Engine w) : (e.hardwareReset).poly = defaultPoly w := rfl
@[simp] theorem hardwareReset_endian (e : Engine w) : (e.hardwareReset).endian = defaultEnd := rfl
@[simp] theorem hardwareReset_seed (e : Engine w) : (e.hardwareReset).seed = defaultSeed w := rfl
@[simp] theorem hardwareReset_acc (e : Engine w) : (e.hardwareReset).acc = defaultSeed w := rfl
@[simp] theorem hardwareReset_count (e : Engine w) : (e.hardwareReset).count = 0 := rfl
@[simp] theorem hardwareReset_table (e : Engine w) : (e.hardwareReset).table = genTable (defaultPoly w) defaultEnd := rfl
@[simp] theorem hardwareReset_errInvCfg (e : Engine w) : (e.hardwareReset).errInvCfg = false := rfl
@[simp] theorem hardwareReset_errIllCmd (e : Engine w) : (e.hardwareReset).errIllCmd = false := rfl
@[simp] theorem hardwareReset_busy (e : Engine w) : (e.hardwareReset).busy = false := rfl
@[simp] theorem hardwareReset_genIdx (e : Engine w) : (e.hardwareReset).genIdx = Config.idleGenIdx e.freeCount := rfl
@[simp] theorem hardwareReset_genPhase (e : Engine w) : (e.hardwareReset).genPhase = .idle := rfl
@[simp] theorem hardwareReset_pending (e : Engine w) : (e.hardwareReset).pending = none := rfl
@[simp] theorem hardwareReset_rsp (e : Engine w) : (e.hardwareReset).rsp = none := rfl
@[simp] theorem hardwareReset_freeCount (e : Engine w) : (e.hardwareReset).freeCount = e.freeCount + 1 := rfl

/-! ## The byte update -/

@[simp] theorem addByte_poly (byte : Byte) (e : Engine w) : (e.addByte byte).poly = e.poly := rfl
@[simp] theorem addByte_endian (byte : Byte) (e : Engine w) : (e.addByte byte).endian = e.endian := rfl
@[simp] theorem addByte_seed (byte : Byte) (e : Engine w) : (e.addByte byte).seed = e.seed := rfl
@[simp] theorem addByte_acc (byte : Byte) (e : Engine w) : (e.addByte byte).acc = addByte e.acc e.table byte e.endian := rfl
@[simp] theorem addByte_count (byte : Byte) (e : Engine w) : (e.addByte byte).count = e.count + 1 := rfl
@[simp] theorem addByte_table (byte : Byte) (e : Engine w) : (e.addByte byte).table = e.table := rfl
@[simp] theorem addByte_errInvCfg (byte : Byte) (e : Engine w) : (e.addByte byte).errInvCfg = e.errInvCfg := rfl
@[simp] theorem addByte_errIllCmd (byte : Byte) (e : Engine w) : (e.addByte byte).errIllCmd = e.errIllCmd := rfl
@[simp] theorem addByte_busy (byte : Byte) (e : Engine w) : (e.addByte byte).busy = e.busy := rfl
@[simp] theorem addByte_genIdx (byte : Byte) (e : Engine w) : (e.addByte byte).genIdx = e.genIdx := rfl
@[simp] theorem addByte_genPhase (byte : Byte) (e : Engine w) : (e.addByte byte).genPhase = e.genPhase := rfl
@[simp] theorem addByte_pending (byte : Byte) (e : Engine w) : (e.addByte byte).pending = e.pending := rfl
@[simp] theorem addByte_rsp (byte : Byte) (e : Engine w) : (e.addByte byte).rsp = some .ok := rfl
@[simp] theorem addByte_freeCount (byte : Byte) (e : Engine w) : (e.addByte byte).freeCount = e.freeCount := rfl

/-! ## Construction -/

@[simp] theorem initRaw_poly (poly : Word w) (mode : Endian) (seed : Word w) (e : Engine w) : (e.initRaw poly mode seed).poly = poly := rfl
@[simp] theorem initRaw_endian (poly : Word w) (mode : Endian) (seed : Word w) (e : Engine w) : (e.initRaw poly mode seed).endian = mode := rfl
@[simp] theorem initRaw_seed (poly : Word w) (mode : Endian) (seed : Word w) (e : Engine w) : (e.initRaw poly mode seed).seed = seed := rfl
@[simp] theorem initRaw_acc (poly : Word w) (mode : Endian) (seed : Word w) (e : Engine w) : (e.initRaw poly mode seed).acc = seed := rfl
@[simp] theorem initRaw_count (poly : Word w) (mode : Endian) (seed : Word w) (e : Engine w) : (e.initRaw poly mode seed).count = 0 := rfl
@[simp] theorem initRaw_table (poly : Word w) (mode : Endian) (seed : Word w) (e : Engine w) : (e.initRaw poly mode seed).table = genTable poly mode := rfl
@[simp] theorem initRaw_errInvCfg (poly : Word w) (mode : Endian) (seed : Word w) (e : Engine w) : (e.initRaw poly mode seed).errInvCfg = e.errInvCfg := rfl
@[simp] theorem initRaw_errIllCmd (poly : Word w) (mode : Endian) (seed : Word w) (e : Engine w) : (e.initRaw poly mode seed).errIllCmd = e.errIllCmd := rfl
@[simp] theorem initRaw_busy (poly : Word w) (mode : Endian) (seed : Word w) (e : Engine w) : (e.initRaw poly mode seed).busy = e.busy := rfl
@[simp] theorem initRaw_genIdx (poly : Word w) (mode : Endian) (seed : Word w) (e : Engine w) : (e.initRaw poly mode seed).genIdx = e.genIdx := rfl
@[simp] theorem initRaw_genPhase (poly : Word w) (mode : Endian) (seed : Word w) (e : Engine w) : (e.initRaw poly mode seed).genPhase = e.genPhase := rfl
@[simp] theorem initRaw_pending (poly : Word w) (mode : Endian) (seed : Word w) (e : Engine w) : (e.initRaw poly mode seed).pending = e.pending := rfl
@[simp] theorem initRaw_rsp (poly : Word w) (mode : Endian) (seed : Word w) (e : Engine w) : (e.initRaw poly mode seed).rsp = some .ok := rfl
@[simp] theorem initRaw_freeCount (poly : Word w) (mode : Endian) (seed : Word w) (e : Engine w) : (e.initRaw poly mode seed).freeCount = e.freeCount := rfl

/-! ## FLIP -/

@[simp] theorem flip_poly (e : Engine w) : (e.flip).poly = rev e.poly := rfl
@[simp] theorem flip_endian (e : Engine w) : (e.flip).endian = otherMode e.endian := rfl
@[simp] theorem flip_seed (e : Engine w) : (e.flip).seed = e.seed := rfl
@[simp] theorem flip_acc (e : Engine w) : (e.flip).acc = e.seed := rfl
@[simp] theorem flip_count (e : Engine w) : (e.flip).count = 0 := rfl
@[simp] theorem flip_table (e : Engine w) : (e.flip).table = genTable (rev e.poly) (otherMode e.endian) := rfl
@[simp] theorem flip_errInvCfg (e : Engine w) : (e.flip).errInvCfg = e.errInvCfg := rfl
@[simp] theorem flip_errIllCmd (e : Engine w) : (e.flip).errIllCmd = e.errIllCmd := rfl
@[simp] theorem flip_busy (e : Engine w) : (e.flip).busy = e.busy := rfl
@[simp] theorem flip_genIdx (e : Engine w) : (e.flip).genIdx = e.genIdx := rfl
@[simp] theorem flip_genPhase (e : Engine w) : (e.flip).genPhase = e.genPhase := rfl
@[simp] theorem flip_pending (e : Engine w) : (e.flip).pending = e.pending := rfl
@[simp] theorem flip_rsp (e : Engine w) : (e.flip).rsp = some .ok := rfl
@[simp] theorem flip_freeCount (e : Engine w) : (e.flip).freeCount = e.freeCount := rfl

end Sys2Proof.Machine
end

