-- ==== Sys2Proof/Laws/Exec.lean ====
section
/-! SUPPORT. What the shared functions do, said once: the table's read and write, the commands' common effect, the name
resolution, and the step. -/

namespace Sys2Proof.Machine

variable {w : Width}

/-! ## The table -/

theorem read_genTable {n : Nat} (p : BitVec n) (e : Endian) (i : Byte) : (genTable p e).read i = genEntry p e i := by
  simp [genTable, Table.read]

theorem read_write_same {n : Nat} (t : Table n) (i : Byte) (v : BitVec n) : (t.write i v).read i = v := by
  simp [Table.read, Table.write]

theorem read_write_other {n : Nat} (t : Table n) {i j : Byte} (v : BitVec n) (h : i ≠ j) :
    (t.write i v).read j = t.read j := by
  have : i.toNat ≠ j.toNat := fun h' => h (BitVec.eq_of_toNat_eq h')
  simp [Table.read, Table.write, Vector.getElem_set_ne, this]

/-- Two tables with the same word at every index are equal: the table has one canonical form. -/
theorem table_ext {n : Nat} {t u : Table n} (h : ∀ i : Byte, t.read i = u.read i) : t = u := by
  apply Vector.ext
  intro i hi
  have := h (BitVec.ofNatLT i hi)
  simpa [Table.read] using this

/-! ## The commands -/

/-- Every arm of `exec` answers a next state: the engine changed by the command's effect, the rest of the machine as before. -/
theorem exec_eq (i : Instr) (s : State) : exec i s = .next (s.withEngine (s.engine.effect i)) := by cases i <;> rfl

theorem catalogConst_isSome (w : Width) (index : Nat) : (catalogConst w index).isSome = decide (index < nNames w) := by
  by_cases h : index < (catalog w).length <;> simp [catalogConst, nNames, h]

theorem resolveName_eq (mode : Endian) (index : Nat) :
    resolveName (catalog w) catalogForm mode index = (catalogConst w index).map (representIn catalogForm mode) := by
  simp [resolveName, catalogConst, Function.comp_def]

/-- `INIT_NAME` with an index outside the catalog raises the error and does nothing else. -/
theorem initName_invalid {index : Nat} (h : nNames w ≤ index) (mode : Endian) (seed : Word w) (e : Engine w) :
    e.initName index mode seed = e.raise .invalidConfiguration := by
  have : resolveName (catalog w) catalogForm mode index = none := by
    simp [resolveName, List.getElem?_eq_none_iff.2 h]
  simp [Engine.initName, this]

/-- `INIT_NAME` with an index inside the catalog constructs from the constant it reads. -/
theorem initName_valid {index : Nat} {c : Word w} (h : catalogConst w index = some c) (mode : Endian) (seed : Word w)
    (e : Engine w) : e.initName index mode seed = e.initRaw (representIn catalogForm mode c) mode seed := by
  simp [Engine.initName, resolveName_eq, h, Engine.initRaw]

theorem setPoly_same (e : Engine w) : e.setPoly e.poly = e.respond .ok := by simp [Engine.setPoly]
theorem setEnd_same (e : Engine w) : e.setEnd e.endian = e.respond .ok := by simp [Engine.setEnd]
theorem setSeed_same (e : Engine w) : e.setSeed e.seed = e.respond .ok := by simp [Engine.setSeed]

theorem setPoly_other {v : Word w} {e : Engine w} (h : v ≠ e.poly) : e.setPoly v = e.initRaw v e.endian e.seed := by
  simp [Engine.setPoly, h, Engine.initRaw, Engine.construct, Engine.resetProc]

theorem setEnd_other {v : Endian} {e : Engine w} (h : v ≠ e.endian) : e.setEnd v = e.initRaw e.poly v e.seed := by
  simp [Engine.setEnd, h, Engine.initRaw, Engine.construct, Engine.resetProc]

theorem setSeed_other {v : Word w} {e : Engine w} (h : v ≠ e.seed) : e.setSeed v = e.initRaw e.poly e.endian v := by
  simp [Engine.setSeed, h, Engine.initRaw, Engine.construct, Engine.resetProc]

theorem flip_eq_initRaw (e : Engine w) : e.flip = e.initRaw (rev e.poly) (otherMode e.endian) e.seed := rfl

theorem cmdReset_eq_initRaw (e : Engine w) : e.cmdReset = e.initRaw e.poly e.endian e.seed := rfl

/-- Everything a command can do to an engine: give `OK` and change nothing, add a byte, construct (every command that calls
`Reset()`), or raise `InvalidConfiguration`. -/
theorem effect_cases (i : Instr) (e : Engine w) :
    (e.effect i = e.respond .ok ∧ e.callsReset i = false) ∨
    (∃ byte, i = .addByte byte ∧ e.effect i = e.addByte byte) ∨
    (∃ poly mode seed, e.effect i = e.initRaw poly mode seed ∧ e.callsReset i = true) ∨
    (raisesInvalid w i = true ∧ e.effect i = e.raise .invalidConfiguration ∧ e.callsReset i = false) := by
  cases i with
  | reset => exact .inr (.inr (.inl ⟨_, _, _, cmdReset_eq_initRaw e, rfl⟩))
  | setPoly v =>
    by_cases h : operandValue w v = e.poly
    · exact .inl ⟨by simp [Engine.effect, h, setPoly_same], by simp [Engine.callsReset, h]⟩
    · exact .inr (.inr (.inl ⟨_, _, _, setPoly_other h, by simp [Engine.callsReset, h]⟩))
  | setEnd v =>
    by_cases h : v = e.endian
    · exact .inl ⟨by simp [Engine.effect, h, setEnd_same], by simp [Engine.callsReset, h]⟩
    · exact .inr (.inr (.inl ⟨_, _, _, setEnd_other h, by simp [Engine.callsReset, h]⟩))
  | setSeed v =>
    by_cases h : operandValue w v = e.seed
    · exact .inl ⟨by simp [Engine.effect, h, setSeed_same], by simp [Engine.callsReset, h]⟩
    · exact .inr (.inr (.inl ⟨_, _, _, setSeed_other h, by simp [Engine.callsReset, h]⟩))
  | flip => exact .inr (.inr (.inl ⟨_, _, _, flip_eq_initRaw e, rfl⟩))
  | addByte byte => exact .inr (.inl ⟨byte, rfl, rfl⟩)
  | initRaw p m s => exact .inr (.inr (.inl ⟨_, _, _, rfl, rfl⟩))
  | initName n m s =>
    by_cases h : catalogIndex n < nNames w
    · obtain ⟨c, hc⟩ := Option.isSome_iff_exists.1 ((catalogConst_isSome w (catalogIndex n)).trans (by simp [h]))
      exact .inr (.inr (.inl ⟨_, _, _, initName_valid hc m (operandValue w s) e, by simp [Engine.callsReset, h]⟩))
    · exact .inr (.inr (.inr ⟨by simp [raisesInvalid]; omega, initName_invalid (by omega) m _ e,
        by simp [Engine.callsReset, h]⟩))

/-! ## The step -/

theorem step_busy {s : State} (h : s.engine.busy = true) : step s = .next (s.withEngine s.engine.drain) := by
  simp [step, transaction, h]

theorem step_idle {s : State} (h : s.engine.busy = false) (hi : s.input = []) :
    step s = .next (s.withEngine s.engine.idle) := by
  simp [step, transaction, h, hi]

theorem step_event {s : State} {event : HostEvent s.width} {later : List (HostEvent s.width)}
    (h : s.engine.busy = false) (hi : s.input = event :: later) :
    step s = runEvent { s with input := later } event := by
  simp [step, transaction, h, hi]

end Sys2Proof.Machine
end

