-- ==== Sys2Proof/Laws/PerInstr.lean ====
section
/-! SUPPORT. Statements made for every instruction, one lemma per constructor. -/

namespace Sys2Proof.Laws.BoolCheck

/-- The Bool check of an instruction answers true exactly when the instruction is well formed. -/
def Statement (i : Instr) : Prop := ∀ w : Width, i.wellFormed w = true ↔ i.WellFormed w

theorem reset : Statement .reset := fun _ => ⟨fun _ => trivial, fun _ => rfl⟩
theorem setPoly (value : Operand) : Statement (.setPoly value) := fun _ => by simp [Instr.wellFormed]
theorem setEnd (value : Endian) : Statement (.setEnd value) := fun _ => ⟨fun _ => trivial, fun _ => rfl⟩
theorem setSeed (value : Operand) : Statement (.setSeed value) := fun _ => by simp [Instr.wellFormed]
theorem flip : Statement .flip := fun _ => ⟨fun _ => trivial, fun _ => rfl⟩
theorem addByte (byte : Byte) : Statement (.addByte byte) := fun _ => ⟨fun _ => trivial, fun _ => rfl⟩
theorem initRaw (poly : Operand) (mode : Endian) (seed : Operand) : Statement (.initRaw poly mode seed) := fun _ => by
  simp [Instr.wellFormed]
theorem initName (name : Operand) (mode : Endian) (seed : Operand) : Statement (.initName name mode seed) := fun _ => by
  simp [Instr.wellFormed]

end Sys2Proof.Laws.BoolCheck
end

