-- ==== Sys2Proof/Laws/Sequencer.lean ====
section
/-! SUPPORT. What one cycle of the generator and one clock edge of the engine do, said once: the generator's output and next
state by phase, and the engine after an edge by what the edge finds. -/

namespace Sys2Proof.Machine

variable {w : Width}

/-! ## The generator -/

@[simp] theorem next_start {n : Nat} {i : GenIn n} (h : i.genStart = true) (g : Generator) :
    g.next i = ⟨.writing, 0, g.freeCount⟩ := by simp [Generator.next, h]

@[simp] theorem next_idle {n : Nat} {i : GenIn n} {g : Generator} (h : i.genStart = false) (hp : g.phase = .idle) :
    g.next i = g := by simp [Generator.next, h, hp]

theorem next_writing {n : Nat} {i : GenIn n} {g : Generator} (h : i.genStart = false) (hp : g.phase = .writing)
    (hi : g.genIdx ≠ 0xFF) : g.next i = ⟨.writing, g.genIdx + 1, g.freeCount⟩ := by
  simp only [Generator.next, h, Bool.false_eq_true, if_false, hp, if_neg hi]

theorem next_last {n : Nat} {i : GenIn n} {g : Generator} (h : i.genStart = false) (hp : g.phase = .writing)
    (hi : g.genIdx = 0xFF) : g.next i = ⟨.done, 0xFF, g.freeCount⟩ := by
  simp only [Generator.next, h, Bool.false_eq_true, if_false, hp, if_pos hi]
  rw [← hi]

@[simp] theorem next_done {n : Nat} {i : GenIn n} {g : Generator} (h : i.genStart = false) (hp : g.phase = .done) :
    g.next i = g.release := by simp [Generator.next, h, hp]

@[simp] theorem out_idle {n : Nat} (i : GenIn n) {g : Generator} (hp : g.phase = .idle) :
    g.out i = ⟨false, none, none, false⟩ := by simp [Generator.out, hp]

@[simp] theorem out_writing {n : Nat} (i : GenIn n) {g : Generator} (hp : g.phase = .writing) :
    g.out i = ⟨true, some g.genIdx, some (genEntry i.genPoly i.genEnd g.genIdx), false⟩ := by simp [Generator.out, hp]

@[simp] theorem out_done {n : Nat} (i : GenIn n) {g : Generator} (hp : g.phase = .done) :
    g.out i = ⟨false, none, none, true⟩ := by simp [Generator.out, hp]

@[simp] theorem clocked_write {n : Nat} (t : Table n) (a : Byte) (v : BitVec n) (d : Bool) :
    t.clocked ⟨true, some a, some v, d⟩ = t.write a v := rfl

@[simp] theorem clocked_none {n : Nat} (t : Table n) (a : Option Byte) (v : Option (BitVec n)) (d : Bool) :
    t.clocked ⟨false, a, v, d⟩ = t := rfl

@[simp] theorem generator_phase (e : Engine w) : e.generator.phase = e.genPhase := rfl
@[simp] theorem generator_genIdx (e : Engine w) : e.generator.genIdx = e.genIdx := rfl
@[simp] theorem generator_freeCount (e : Engine w) : e.generator.freeCount = e.freeCount := rfl

/-- `gen_start` is low on a busy engine without `rst`. -/
theorem genStart_busy {e : Engine w} {p : PortIn w} (h : e.busy = true) (hr : p.rst = false) : e.genStart p = false := by
  simp [Engine.genStart, h, hr]

/-- `gen_start` is low where nothing is presented. -/
theorem genStart_quiet (e : Engine w) (cmd : Command w) : e.genStart ⟨false, false, cmd⟩ = false := by
  simp [Engine.genStart]

/-- The engine waits exactly while its generator writes. -/
theorem waitsForTable_eq (p : PortIn w) (e : Engine w) : e.waitsForTable p = decide (e.genPhase = .writing) := by
  cases h : e.genPhase <;> simp [Engine.waitsForTable, Engine.genOut, h]

/-! ## One edge -/

/-- `rst`: the defaults are loaded and a run of the generator begins, whatever the engine was doing. -/
theorem edge_rst (e : Engine w) {p : PortIn w} (hr : p.rst = true) :
    e.edge p = { e.beginReset with
      genPhase := .writing, genIdx := 0, freeCount := e.freeCount, table := e.table.clocked (e.genOut p) } := by
  have hs : (e.genIn p).genStart = true := by simp [Engine.genIn, Engine.genStart, hr]
  simp [Engine.edge, Engine.control, hr, next_start hs, Engine.withGenerator]

/-- A busy engine whose generator writes: one word, and no response. -/
theorem edge_writing {e : Engine w} {p : PortIn w} (h : e.busy = true) (hr : p.rst = false) (hp : e.genPhase = .writing) :
    e.edge p = { e with
      genPhase := if e.genIdx = 0xFF then .done else .writing
      genIdx := if e.genIdx = 0xFF then 0xFF else e.genIdx + 1
      table := e.table.write e.genIdx (genEntry e.poly e.endian e.genIdx)
      rsp := none } := by
  have hs : (e.genIn p).genStart = false := genStart_busy h hr
  have hw := waitsForTable_eq p e
  have hc : e.table.clocked (e.genOut p) = e.table.write e.genIdx (genEntry e.poly e.endian e.genIdx) := by
    simp [Engine.genOut, Engine.genIn, hp]
  have hk : e.control p = e.idle := by simp [Engine.control, h, hr, hw, hp]
  by_cases hi : e.genIdx = 0xFF
  · rw [Engine.edge, hk, hc, next_last (g := e.generator) hs hp hi, if_pos hi, if_pos hi]; rfl
  · rw [Engine.edge, hk, hc, next_writing (g := e.generator) hs hp hi, if_neg hi, if_neg hi]; rfl

/-- A busy engine whose generator pulses `gen_done`: the response is shown, the generator is idle. -/
theorem edge_done {e : Engine w} {p : PortIn w} (h : e.busy = true) (hr : p.rst = false) (hp : e.genPhase = .done) :
    e.edge p = e.complete.withGenerator e.generator.release := by
  have hs : (e.genIn p).genStart = false := genStart_busy h hr
  have hw := waitsForTable_eq p e
  have hc : e.table.clocked (e.genOut p) = e.table := by simp [Engine.genOut, hp]
  have hk : e.control p = e.complete := by simp [Engine.control, h, hr, hw, hp]
  rw [Engine.edge, hk, hc, next_done (g := e.generator) hs hp]; rfl

/-- A busy engine whose generator is idle: the response is shown. -/
theorem edge_complete {e : Engine w} {p : PortIn w} (h : e.busy = true) (hr : p.rst = false) (hp : e.genPhase = .idle) :
    e.edge p = e.complete := by
  have hs : (e.genIn p).genStart = false := genStart_busy h hr
  have hw := waitsForTable_eq p e
  have hc : e.table.clocked (e.genOut p) = e.table := by simp [Engine.genOut, hp]
  have hk : e.control p = e.complete := by simp [Engine.control, h, hr, hw, hp]
  rw [Engine.edge, hk, hc, next_idle (g := e.generator) hs hp]; rfl

/-- `Exec` leaves the generator alone. -/
theorem execWord_generator (cmd : Command w) (e : Engine w) : (e.execWord cmd).generator = e.generator := by
  unfold Engine.execWord
  split
  · rename_i i _
    rcases effect_cases i e with ⟨h, _⟩ | ⟨byte, _, h⟩ | ⟨p, m, s, h, _⟩ | ⟨_, h, _⟩ <;> simp [h, Engine.generator]
  · simp [Engine.generator]

/-- A word accepted with the generator idle: the registers change, the table does not yet; a run of the generator begins
exactly for a command that calls `Reset()`. -/
theorem edge_accept {e : Engine w} (cmd : Command w) (h : e.busy = false) (hp : e.genPhase = .idle) :
    e.edge ⟨false, true, cmd⟩ = { e.accept cmd with
      genPhase := if e.wordCallsReset cmd then .writing else .idle
      genIdx := if e.wordCallsReset cmd then 0 else e.genIdx
      freeCount := e.freeCount
      table := e.table } := by
  have hc : e.table.clocked (e.genOut ⟨false, true, cmd⟩) = e.table := by simp [Engine.genOut, hp]
  cases hr : e.wordCallsReset cmd with
  | true =>
    have hs : (e.genIn ⟨false, true, cmd⟩).genStart = true := by simp [Engine.genIn, Engine.genStart, h, hr]
    simp [Engine.edge, Engine.control, h, hc, next_start hs, Engine.withGenerator]
  | false =>
    have hs : (e.genIn ⟨false, true, cmd⟩).genStart = false := by simp [Engine.genIn, Engine.genStart, h, hr]
    simp [Engine.edge, Engine.control, h, hc, next_idle (g := e.generator) hs hp, Engine.withGenerator, hp]

/-- A ready engine with its generator idle and nothing presented only stops showing a response. -/
theorem edge_idle {e : Engine w} (cmd : Command w) (h : e.busy = false) (hp : e.genPhase = .idle) :
    e.edge ⟨false, false, cmd⟩ = e.idle := by
  have hs : (e.genIn ⟨false, false, cmd⟩).genStart = false := genStart_quiet e cmd
  have hc : e.table.clocked (e.genOut ⟨false, false, cmd⟩) = e.table := by simp [Engine.genOut, hp]
  have hk : e.control ⟨false, false, cmd⟩ = e.idle := by simp [Engine.control, h]
  rw [Engine.edge, hk, hc, next_idle (g := e.generator) hs hp]; rfl

end Sys2Proof.Machine
end

