-- ==== Sys2Proof/Tests/Slice0.lean ====
section
/-! SUPPORT. Tests: expected values come from spec/30_encoding.md R85 and spec/95_test_vectors.md, named in each comment.
Then one witness for every statement that has hypotheses. -/

namespace Sys2Proof.Tests

open Sys2Proof.Machine

/-! ## Well-formedness: each check refuses a term that fails it -/

theorem test_wf_setPoly_w8 : (Instr.setPoly 0x100).wellFormed .w8 = false := by decide
theorem test_wf_setPoly_w16 : (Instr.setPoly 0x10000).wellFormed .w16 = false := by decide
theorem test_wf_setSeed_w16 : (Instr.setSeed 0xFFFFFFFF).wellFormed .w16 = false := by decide
theorem test_wf_initRaw_poly : (Instr.initRaw 0x10000 .forward 0).wellFormed .w16 = false := by decide
theorem test_wf_initRaw_seed : (Instr.initRaw 0 .forward 0x10000).wellFormed .w16 = false := by decide
theorem test_wf_initName_name : (Instr.initName 0x100 .reflected 0).wellFormed .w8 = false := by decide
theorem test_wf_initName_seed : (Instr.initName 0 .reflected 0x100).wellFormed .w8 = false := by decide
theorem test_wf_largest : (Instr.initRaw 0xFF .forward 0xFF).wellFormed .w8 = true ∧
    (Instr.initName 0xFFFF .reflected 0xFFFF).wellFormed .w16 = true ∧
    (Instr.setPoly 0xFFFFFFFF).wellFormed .w32 = true ∧ (Instr.setSeed 0xFFFFFFFF).wellFormed .w32 = true := by decide

/-! ## Decoding: words written out from R73 to R76 (spec/95_test_vectors.md V51, V52, V53) -/

theorem test_decode_w8 :
    decode .w8 0x000001 = .ok .reset ∧ decode .w8 0x008C02 = .ok (.setPoly 0x8C) ∧
    decode .w8 0x000003 = .ok (.setEnd .forward) ∧ decode .w8 0x000013 = .ok (.setEnd .reflected) ∧
    decode .w8 0x00FF04 = .ok (.setSeed 0xFF) ∧ decode .w8 0x000005 = .ok .flip ∧
    decode .w8 0x003906 = .ok (.addByte 0x39) ∧ decode .w8 0xFF8C07 = .ok (.initRaw 0x8C .forward 0xFF) ∧
    decode .w8 0x000118 = .ok (.initName 1 .reflected 0) := by decide

theorem test_decode_w16 :
    decode .w16 0x0000000001 = .ok .reset ∧ decode .w16 0x0000102102 = .ok (.setPoly 0x1021) ∧
    decode .w16 0x0000000003 = .ok (.setEnd .forward) ∧ decode .w16 0x0000000013 = .ok (.setEnd .reflected) ∧
    decode .w16 0x0000FFFF04 = .ok (.setSeed 0xFFFF) ∧ decode .w16 0x0000000005 = .ok .flip ∧
    decode .w16 0x0000003906 = .ok (.addByte 0x39) ∧
    decode .w16 0xFFFF102107 = .ok (.initRaw 0x1021 .forward 0xFFFF) ∧
    decode .w16 0x0000000118 = .ok (.initName 1 .reflected 0) := by decide

theorem test_decode_w32 :
    decode .w32 0x000000000000000001 = .ok .reset ∧
    decode .w32 0x0000000004C11DB702 = .ok (.setPoly 0x04C11DB7) ∧
    decode .w32 0x000000000000000003 = .ok (.setEnd .forward) ∧
    decode .w32 0x000000000000000013 = .ok (.setEnd .reflected) ∧
    decode .w32 0x00000000FFFFFFFF04 = .ok (.setSeed 0xFFFFFFFF) ∧
    decode .w32 0x000000000000000005 = .ok .flip ∧ decode .w32 0x000000000000003906 = .ok (.addByte 0x39) ∧
    decode .w32 0xFFFFFFFF04C11DB707 = .ok (.initRaw 0x04C11DB7 .forward 0xFFFFFFFF) ∧
    decode .w32 0x000000000000000118 = .ok (.initName 1 .reflected 0) := by decide

/-- V52: bits that the format does not use. -/
theorem test_decode_ignored :
    decode .w16 0x1234AB3116 = .ok (.addByte 0x31) ∧ decode .w16 0xFFFFFFFF11 = .ok .reset ∧
    decode .w16 0xDEADBEEF03 = .ok (.setEnd .forward) := by decide

/-- V53. -/
theorem test_decode_illegal :
    decode .w16 0x0000000000 = .error (.reservedOpcode 0x00) ∧ decode .w16 0x000000000F = .error (.reservedOpcode 0x0F) ∧
    decode .w16 0x0000000010 = .error (.reservedOpcode 0x10) ∧ decode .w16 0x0000000081 = .error (.reservedBits 0x81) ∧
    decode .w16 0x0000FFFF38 = .error (.reservedBits 0x38) ∧ decode .w16 0xFFFFFFFFFF = .error (.reservedBits 0xFF) := by decide

/-- V50: the 16 legal control bytes are these. -/
theorem test_legal_control_bytes :
    ((List.range 256).filter fun c => (decode .w16 (BitVec.ofNat _ c)).isOk) =
      [0x01, 0x02, 0x03, 0x04, 0x05, 0x06, 0x07, 0x08, 0x11, 0x12, 0x13, 0x14, 0x15, 0x16, 0x17, 0x18] := by decide +kernel

/-- V51, the other way. -/
theorem test_encode :
    encode .w8 (.initRaw 0x8C .forward 0xFF) = 0xFF8C07 ∧ encode .w16 (.addByte 0x39) = 0x0000003906 ∧
    encode .w16 (.initName 6 .reflected 0) = 0x0000000618 ∧ encode .w16 (.setEnd .reflected) = 0x0000000013 ∧
    encode .w32 (.setSeed 0xFFFFFFFF) = 0x00000000FFFFFFFF04 ∧
    encode .w32 (.initName 0 .reflected 0xFFFFFFFF) = 0xFFFFFFFF0000000018 := by decide

/-! ## Primitives (V30 to V33, V1 to V4, T1 to T5) -/

theorem test_rev : rev 0x0F#8 = 0xF0#8 ∧ rev 0xD9#8 = 0x9B#8 ∧ rev 0x8404#16 = 0x2021#16 ∧ rev 0x1234#16 = 0x2C48#16 ∧
    rev 0x12345678#32 = 0x1E6A2C48#32 ∧ rev 0x00A5#16 = 0xA500#16 := by decide +kernel

theorem test_genEntry_forward : genEntry 0x1021#16 .forward 0xFF = 0x1EF0#16 ∧ genEntry 0x07#8 .forward 0x80 = 0x89#8 ∧
    genEntry 0x04C11DB7#32 .forward 0xA7 = 0xEF68060B#32 ∧ genEntry 0xFF#8 .forward 0x02 = 0x01#8 := by decide

theorem test_genEntry_reflected : genEntry 0xA001#16 .reflected 0xB1 = 0x74C0#16 ∧
    genEntry 0xE0#8 .reflected 0xFF = 0xCF#8 ∧ genEntry 0xEDB88320#32 .reflected 0x01 = 0x77073096#32 ∧
    genEntry 0xFFFF#16 .reflected 0xFF = 0x01FF#16 := by decide

/-- The sum of a table's words modulo `2^32`, the vectors' compact check. -/
def tableSum {n : Nat} (t : Table n) : Nat := (t.toList.map BitVec.toNat).sum % 2 ^ 32

theorem test_table_sums : tableSum (genTable 0xE0#8 .reflected) = 0x00007F80 ∧
    tableSum (genTable 0xA001#16 .reflected) = 0x007FE080 ∧ tableSum (genTable 0x8005#16 .forward) = 0x0041FF80 ∧
    tableSum (genTable 0xEDB88320#32 .reflected) = 0xFFFFFF80 := by decide +kernel

/-- The nine bytes of the standard message. -/
def nineBytes : List Byte := [0x31, 0x32, 0x33, 0x34, 0x35, 0x36, 0x37, 0x38, 0x39]

/-- V10 to V18: the known answers. -/
theorem test_known_answers :
    feed 0#8 (genTable 0xE0#8 .reflected) .reflected nineBytes = 0x20#8 ∧
    feed 0#8 (genTable 0x07#8 .forward) .forward nineBytes = 0xF4#8 ∧
    feed 0#16 (genTable 0xA001#16 .reflected) .reflected nineBytes = 0xBB3D#16 ∧
    feed 0xFFFF#16 (genTable 0x1021#16 .forward) .forward nineBytes = 0x29B1#16 ∧
    feed 0xFFFFFFFF#32 (genTable 0xEDB88320#32 .reflected) .reflected nineBytes = 0x340BC6D9#32 ∧
    feed 0xFFFFFFFF#32 (genTable 0x04C11DB7#32 .forward) .forward nineBytes = 0x0376E6E7#32 := by decide +kernel

/-- V33. -/
theorem test_render : render .w8 0x07 = "07" ∧ render .w16 0x00A1 = "00a1" ∧ render .w32 0x2DFD2D88 = "2dfd2d88" := by
  decide +kernel

/-! ## Steps: one word presented to an engine -/

/-- A ready engine with this configuration and its own table, to which this word is presented. -/
abbrev given (w : Width) (poly : Word w) (mode : Endian) (seed acc : Word w) (count : BitVec 64) (cmd : Command w) : State where
  width := w
  engine := { Engine.reset w with
    poly := poly, endian := mode, seed := seed, acc := acc, count := count, table := genTable poly mode }
  input := [.command cmd]

/-- What the vectors list of a state: `POLY`, `END`, `SEED`, `ACC`, `COUNT`, `ERR.ILLCMD`, `ERR.INVCFG`, the response, and
one word of the table. -/
structure Seen where
  poly : Nat
  endian : Endian
  seed : Nat
  acc : Nat
  count : Nat
  illCmd : Bool
  invCfg : Bool
  rsp : Option Response
  tblWord : Nat
  deriving DecidableEq, Repr

/-- The same of a step's outcome, the table word being that of index `k`. -/
def seen (k : Byte) : Result → Option Seen
  | .next s => some ⟨s.engine.poly.toNat, s.engine.endian, s.engine.seed.toNat, s.engine.acc.toNat, s.engine.count.toNat,
      s.engine.errIllCmd, s.engine.errInvCfg, s.engine.rsp, (s.engine.table.read k).toNat⟩
  | _ => none

/-- V20, step 6. -/
theorem test_reset : seen 1 (step (given .w16 0xA001#16 .reflected 0x1D0F#16 0xBC51#16 2 0x0000000001)) =
    some ⟨0xA001, .reflected, 0x1D0F, 0x1D0F, 0, false, false, some .ok, 0xC0C1⟩ := by decide +kernel

/-- V21, step 2. -/
theorem test_setPoly_other : seen 0x7F (step (given .w16 0xA001#16 .reflected 0#16 0xBA04#16 3 0x0000840802)) =
    some ⟨0x8408, .reflected, 0, 0, 0, false, false, some .ok, 0x8B70⟩ := by decide +kernel

/-- V21, step 4. -/
theorem test_setPoly_same : seen 0x7F (step (given .w16 0x8408#16 .reflected 0#16 0x2189#16 9 0x0000840802)) =
    some ⟨0x8408, .reflected, 0, 0x2189, 9, false, false, some .ok, 0x8B70⟩ := by decide +kernel

/-- V22, step 1 and V3. -/
theorem test_setEnd_other : seen 0xFF (step (given .w16 0xA001#16 .reflected 0#16 0xD4C1#16 1 0x0000000003)) =
    some ⟨0xA001, .forward, 0, 0, 0, false, false, some .ok, 0xA0B1⟩ := by decide +kernel

/-- V22, step 3. -/
theorem test_setEnd_same : seen 0xFF (step (given .w16 0xA001#16 .forward 0#16 0xA47B#16 9 0x0000000003)) =
    some ⟨0xA001, .forward, 0, 0xA47B, 9, false, false, some .ok, 0xA0B1⟩ := by decide +kernel

/-- V23, step 4. -/
theorem test_setSeed_other :
    seen 1 (step (given .w32 0xEDB88320#32 .reflected 0xFFFFFFFF#32 0x340BC6D9#32 9 0x000000000000000004)) =
      some ⟨0xEDB88320, .reflected, 0, 0, 0, false, false, some .ok, 0x77073096⟩ := by decide +kernel

/-- V23, step 3. -/
theorem test_setSeed_same :
    seen 1 (step (given .w32 0xEDB88320#32 .reflected 0xFFFFFFFF#32 0x340BC6D9#32 9 0x00000000FFFFFFFF04)) =
      some ⟨0xEDB88320, .reflected, 0xFFFFFFFF, 0x340BC6D9, 9, false, false, some .ok, 0x77073096⟩ := by decide +kernel

/-- V29, step 4: the seed is not reversed. -/
theorem test_flip : seen 0x7F (step (given .w8 0x8C#8 .reflected 0x0F#8 0xAB#8 9 0x000005)) =
    some ⟨0x31, .forward, 0x0F, 0x0F, 0, false, false, some .ok, 0xD6⟩ := by decide +kernel

/-- V26, step 3: a palindromic polynomial, `FLIP` still resets. -/
theorem test_flip_palindrome : seen 0xFF (step (given .w16 0x8001#16 .reflected 0#16 0x11EF#16 2 0x0000000005)) =
    some ⟨0x8001, .forward, 0, 0, 0, false, false, some .ok, 0x00AA⟩ := by decide +kernel

/-- V19, Forward, width 32. -/
theorem test_addByte : seen 0x88
    (step (given .w32 0x04C11DB7#32 .forward 0#32 0x12345678#32 0 0x000000000000009A06)) =
      some ⟨0x04C11DB7, .forward, 0, 0x7B527556, 1, false, false, some .ok, 0x4F040D56⟩ := by decide +kernel

/-- V27 and V52: the count wraps, ignored bits are ignored. -/
theorem test_addByte_wrap : seen 0x31
    (step (given .w16 0xA001#16 .reflected 0#16 0#16 0xFFFFFFFFFFFFFFFF 0x1234AB3116)) =
      some ⟨0xA001, .reflected, 0, 0xD4C1, 0, false, false, some .ok, 0xD4C1⟩ := by decide +kernel

/-- V46. -/
theorem test_initRaw : seen 0x7F (step (given .w16 0xA001#16 .reflected 0#16 0xD4C1#16 1 0xFFFF102107)) =
    some ⟨0x1021, .forward, 0xFFFF, 0xFFFF, 0, false, false, some .ok, 0x8F78⟩ := by decide +kernel

/-- V45: it rewinds even with the configuration already held. -/
theorem test_initRaw_same : seen 1 (step (given .w16 0xA001#16 .reflected 0#16 0xBA04#16 3 0x0000A00117)) =
    some ⟨0xA001, .reflected, 0, 0, 0, false, false, some .ok, 0xC0C1⟩ := by decide +kernel

/-- V41: Forward mode stores the reversed constant. -/
theorem test_initName : seen 0x80 (step (given .w16 0xA001#16 .reflected 0#16 0xD4C1#16 1 0x0000000608)) =
    some ⟨0x8005, .forward, 0, 0, 0, false, false, some .ok, 0x8303⟩ := by decide +kernel

/-- V42: the whole operand is the index, so 0x0106 is no index. -/
theorem test_initName_invalid : seen 1 (step (given .w16 0xA001#16 .reflected 0#16 0xD4C1#16 1 0x0000010618)) =
    some ⟨0xA001, .reflected, 0, 0xD4C1, 1, false, true, some .invalidConfiguration, 0xC0C1⟩ := by decide +kernel

/-- V53: an illegal word wins over an invalid index. -/
theorem test_illegal : seen 1 (step (given .w16 0xA001#16 .reflected 0#16 0xD4C1#16 1 0x0000FFFF38)) =
    some ⟨0xA001, .reflected, 0, 0xD4C1, 1, true, false, some .illegalCommand, 0xC0C1⟩ := by decide +kernel

/-- spec/10_state.md R29 and V53: `status_o` with both errors seen, engine ready. -/
theorem test_status : Engine.getStatus { Engine.reset .w8 with errIllCmd := true, errInvCfg := true } = some 0b110 := by
  decide +kernel

/-- A ready engine that accepts a word is busy on the next edge, and its ports show no value (R71, R72). -/
theorem test_accept : ((Engine.reset .w16).edge ⟨false, true, 0x0000003106⟩).cmdReady = false ∧
    ((Engine.reset .w16).edge ⟨false, true, 0x0000003106⟩).getCrc = none ∧
    (((Engine.reset .w16).edge ⟨false, true, 0x0000003106⟩).edge ⟨false, false, 0⟩).getCrc = some 0xD4C1#16 := by
  decide +kernel

/-- R104 and V2: a write, the one cycle of `gen_done` after the last write, an idle port. -/
theorem test_generator : Generator.out ⟨false, 0xA001#16, .reflected⟩ ⟨.writing, 0xB1, 0⟩ = ⟨true, some 0xB1, some 0x74C0, false⟩ ∧
    (Generator.next ⟨false, 0xA001#16, .reflected⟩ ⟨.writing, 0xFF, 0⟩).out ⟨false, 0xA001#16, .reflected⟩ =
      ⟨false, none, none, true⟩ ∧
    Generator.out ⟨false, 0xA001#16, .reflected⟩ ⟨.idle, 0xFF, 0⟩ = ⟨false, none, none, false⟩ := by decide

/-! ## The interface's names -/

theorem test_decodeTableWord : decodeTableWord 40 0xFFFF102107 = some (.initRaw 0x1021 .forward 0xFFFF) ∧
    decodeTableWord 8 0xFFFF102106 = some (.addByte 0) ∧ decodeTableWord 40 0x0000003126 = none := by decide

/-- The very next step runs the placed word: `SET_SEED 0xFFFF` (R85). -/
theorem test_withFetchWord : seen 1 (step (State.reset.withFetchWord 40 0x0000FFFF04)) =
    some ⟨0xA001, .reflected, 0xFFFF, 0xFFFF, 0, false, false, some .ok, 0xC0C1⟩ := by decide +kernel

/-! ## The assembler (R82, R83, V46) -/

theorem test_assembleLine_operands :
    assembleLine .w16 "INIT_NAME IBM, REFL, 0 ; index 6".toList = some [0x0000000618] ∧
    assembleLine .w16 "INIT_RAW 0x8408".toList = some [0x0000840817] ∧
    assembleLine .w32 "INIT_DEF REFL, 0xFFFFFFFF".toList = some [0xFFFFFFFFEDB8832017] ∧
    assembleLine .w16 ".word 0x0000003426".toList = some [0x0000003426] := by decide +kernel

theorem test_assembleLine_bytes :
    assembleLine .w16 "ADD_BYTES \"12\"".toList = some [0x0000003106, 0x0000003206] ∧
    assembleLine .w16 "ADD_BYTES 0x80, 0".toList = some [0x0000008006, 0x0000000006] ∧
    assembleLine .w16 "GET_CRC".toList = some [] ∧ assembleLine .w8 "SET_POLY 0x100".toList = none ∧
    assembleLine .w16 "INIT_NAME Castagnoli, REFL, 0".toList = none := by decide +kernel

theorem test_assemble : assemble ".width 8\nRESET\nADD_BYTE 0x39 ; nine\n" =
    some ⟨.w8, [0x000001, 0x003906]⟩ := by decide +kernel

/-! ## Witnesses: a state and operands that meet all hypotheses of a statement together, for each of its clauses -/

/-- An engine in the middle of a message: consistent, with a byte consumed. -/
abbrev running (cmd : Command .w16) : State := given .w16 0xA001#16 .reflected 0#16 0xD4C1#16 1 cmd

theorem given_consistent {w : Width} (poly : Word w) (mode : Endian) (seed acc : Word w) (count : BitVec 64)
    (cmd : Command w) : (given w poly mode seed acc count cmd).engine.TableConsistent := rfl

theorem witness_RevReversesBits : (0 < Width.w8.bits ∧ 7 < Width.w8.bits) ∧ 15 < Width.w16.bits ∧ 31 < Width.w32.bits := by
  decide

theorem witness_DecodeOfEncode : (Instr.setPoly 0xFF).WellFormed .w8 ∧ (Instr.initName 0xFFFF .forward 0).WellFormed .w16 ∧
    (Instr.initRaw 0xFFFFFFFF .reflected 0xFFFFFFFF).WellFormed .w32 := by decide

theorem witness_DecodedInstructions : decode .w8 0xFFFF17 = .ok (.initRaw 0xFF .reflected 0xFF) := by decide

/-- One control byte for each clause of R77's statement, the two ends of the reserved range among them. -/
theorem witness_DecodeIsByMaskedControlByte :
    [0x11, 0x02, 0x13, 0x04, 0x15, 0x16, 0x07, 0x18, 0x10, 0x09, 0xEF].map
      (fun c : Nat => (ctlOf (w := .w16) (BitVec.ofNat 40 c) &&& 0xEF).toNat) = [1, 2, 3, 4, 5, 6, 7, 8, 0, 9, 0xEF] := by
  decide

/-- The premises of R78's statement on two words. -/
abbrev Agree (x y : Command .w16) : Prop :=
  ctlOf x &&& 0xEF = ctlOf y &&& 0xEF ∧
  ((opOf (ctlOf x) = 3 ∨ opOf (ctlOf x) = 7 ∨ opOf (ctlOf x) = 8) → eOf (ctlOf x) = eOf (ctlOf y)) ∧
  ((opOf (ctlOf x) = 2 ∨ opOf (ctlOf x) = 4 ∨ opOf (ctlOf x) = 7 ∨ opOf (ctlOf x) = 8) → aOf x = aOf y) ∧
  (opOf (ctlOf x) = 6 → (aOf x).setWidth 8 = (aOf y).setWidth 8) ∧
  ((opOf (ctlOf x) = 7 ∨ opOf (ctlOf x) = 8) → bOf x = bOf y)

/-- The ready engine of the statement's step is `running`. Two words, for each kind of format, that differ in every field that the format ignores and in no other. -/
theorem witness_UnusedFieldsAreIgnored : (running 0).engine.busy = false ∧ Agree 0x0000000001 0xFFFFFFFF11 ∧ Agree 0x0000102102 0xFFFF102112 ∧
    Agree 0x0000000013 0xDEADBEEF13 ∧ Agree 0x0000003106 0x1234AB3116 ∧ Agree 0xFFFF102107 0xFFFF102107 := by
  refine ⟨rfl, ?_, ?_, ?_, ?_, ?_⟩ <;> decide

theorem witness_UnusedFieldsAreIgnored_encode : Instr.reset.WellFormed .w16 ∧ Instr.flip.WellFormed .w16 ∧
    (Instr.setPoly 0xFFFF).WellFormed .w16 ∧ (Instr.setSeed 0).WellFormed .w16 ∧
    (Instr.setEnd .reflected).WellFormed .w16 ∧ (Instr.addByte 0xFF).WellFormed .w16 := by decide

/-- The three ways to be illegal, each on a ready engine. -/
theorem witness_IllegalWords :
    ((running 0x0000003126).engine.busy = false ∧ rsvOf (ctlOf (0x0000003126 : Command .w16)) ≠ 0) ∧
    opOf (ctlOf (0x0000000010 : Command .w16)) = 0 ∧
    9 ≤ (opOf (ctlOf (0x0000000009 : Command .w16))).toNat ∧ 9 ≤ (opOf (ctlOf (0x000000001F : Command .w16))).toNat := by
  decide

theorem witness_ResetCommandRewinds : State.reset.engine.TableConsistent ∧
    State.reset.engine.acc = State.reset.engine.seed ∧ State.reset.engine.count = 0 := ⟨rfl, rfl, rfl⟩

theorem witness_SetSeed : (running 0).engine.TableConsistent ∧
    (0xFFFF : Operand).setWidth 16 ≠ (running 0).engine.seed := ⟨rfl, by decide⟩

theorem witness_Flip : (∀ k, k < 16 → (0x8005#16).getLsbD k = (running 0).engine.poly.getLsbD (16 - 1 - k)) ∧
    (running 0).engine.endian = .reflected ∧ Endian.forward ≠ .reflected := by decide

/-- The first and the last index inside, the first outside and the largest (V42). -/
theorem witness_InitName : (catalog .w16)[(0 : Operand).toNat]? = some ("ARINC", 0xD405#16) ∧
    (catalog .w16)[(10 : Operand).toNat]? = some ("T10", 0xEDD1#16) ∧
    (catalog .w16).length ≤ (11 : Operand).toNat ∧ (catalog .w16).length ≤ (0xFFFF : Operand).toNat := by decide

theorem witness_SettingTheSameValue : (0xA001 : Operand).setWidth 16 = (running 0).engine.poly ∧
    Endian.reflected = (running 0).engine.endian ∧ (0 : Operand).setWidth 16 = (running 0).engine.seed := by decide

theorem witness_ChangingTheConfiguration : (0x8005 : Operand).setWidth 16 ≠ (running 0).engine.poly ∧
    Endian.forward ≠ (running 0).engine.endian ∧ (0xFFFF : Operand).setWidth 16 ≠ (running 0).engine.seed ∧
    (0 : Operand).toNat < nNames .w16 ∧ (10 : Operand).toNat < nNames .w16 := by decide

theorem witness_FlipAfterReflectedName : (0 : Operand).toNat < nNames .w8 ∧ (9 : Operand).toNat < nNames .w8 ∧
    (4 : Operand).toNat < nNames .w32 := by decide

theorem witness_BulkUpdate : ∃ t, execSeq (addBytesOps [0x80, 0x00]) State.reset = .next t := ⟨_, rfl⟩

/-- One byte consumed since the last reset, and none. -/
theorem witness_Accumulator : (running 0).engine.AccountsFor [0x31] ∧ State.reset.engine.AccountsFor [] := by decide +kernel

theorem witness_CommandsWriteOnlyTheirColumns : Column.errIllCmd ∉ mayWrite (.initName 0 .forward 0) ∧
    Column.table ∉ mayWrite (.addByte 0) ∧ (running 0).engine.callsReset (.setPoly 0xA001) = false := by decide

/-- A ready engine, a presentation, a word that decodes. -/
theorem witness_StepRuns : (running 0x0000003106).engine.busy = false ∧
    (running 0x0000003106).input = .command 0x0000003106 :: [] ∧
    decode (running 0x0000003106).width 0x0000003106 = .ok (.addByte 0x31) := by decide

/-- The three kinds of accepted words. -/
theorem witness_EveryAcceptedWord : decode .w16 0x0000003126 = .error (.reservedBits 0x26) ∧
    (decode .w16 0x0000000B18 = .ok (.initName 11 .reflected 0) ∧ raisesInvalid .w16 (.initName 11 .reflected 0) = true) ∧
    (decode .w16 0x0000000A18 = .ok (.initName 10 .reflected 0) ∧ raisesInvalid .w16 (.initName 10 .reflected 0) = false) := by
  decide

theorem witness_IllegalWordOnly : (running 0x0000000009).engine.busy = false ∧
    (running 0x0000000009).input = .command 0x0000000009 :: [] ∧
    decode (running 0x0000000009).width 0x0000000009 = .error (.reservedOpcode 0x09) := by decide

/-- A reset between commands, and one that cuts a command short. -/
theorem witness_HardwareReset : ∃ s t : State, s.engine.busy = false ∧ s.input = .hardwareReset :: [] ∧
    t.engine.busy = false ∧ t.input = .commandThenReset 0 :: [] :=
  ⟨{ running 0 with input := [.hardwareReset] }, { running 0 with input := [.commandThenReset 0] }, rfl, rfl, rfl, rfl⟩

theorem witness_IdleEngine : State.reset.engine.busy = false ∧ State.reset.input = [] := ⟨rfl, rfl⟩

theorem witness_RunOfEncodedCommands : ∃ s : State, s.engine.busy = false ∧
    (∀ i ∈ [Instr.setSeed 0xFFFF, .addByte 0x31], i.WellFormed s.width) ∧
    s.input = [Instr.setSeed 0xFFFF, .addByte 0x31].map (fun i => .command (encode s.width i)) ++ [] :=
  ⟨{ running 0 with input := [Instr.setSeed 0xFFFF, .addByte 0x31].map (fun i => .command (encode .w16 i)) },
    rfl, fun i h => by
      rcases List.mem_cons.1 h with h | h
      · subst h; exact (by decide : (Instr.setSeed 0xFFFF).WellFormed .w16)
      · rcases List.mem_singleton.1 h with rfl; exact trivial, rfl⟩

/-- The first edge of a reset: the engine in the middle of a generation. -/
abbrev resetting (w : Width) : Engine w := (Engine.reset w).edge ⟨true, false, 0⟩

/-- A coherent state that is ready, and one in the middle of a generation. -/
theorem witness_Coherent : State.reset.engine.Coherent ∧ (resetting .w16).Coherent ∧ (resetting .w16).genPhase = .writing :=
  ⟨⟨fun _ => ⟨rfl, rfl⟩, fun h => absurd h (by decide), fun _ => rfl⟩,
   ⟨⟨fun h => absurd h (by decide), fun _ _ h => absurd h (Nat.not_lt_zero _), fun h => absurd rfl h⟩, rfl⟩⟩

theorem witness_EveryStepKeeps : ∃ t, (running 0x0000003106).engine.Coherent ∧ step (running 0x0000003106) = .next t :=
  ⟨_, ⟨fun _ => ⟨rfl, rfl⟩, fun h => absurd h (by decide), fun _ => rfl⟩, rfl⟩

theorem witness_ClockedEngine : (running 0x0000000005).engine.Quiescent ∧
    (running 0x0000000005).input = .command 0x0000000005 :: [] := ⟨⟨rfl, rfl, rfl⟩, rfl⟩

/-- A busy engine whose next edge shows its response. -/
theorem witness_BusyEngine : ((Engine.reset .w16).edge ⟨false, true, 0x0000003106⟩).busy = true ∧
    (((Engine.reset .w16).edge ⟨false, true, 0x0000003106⟩).edge ⟨false, true, 0⟩).rspValid = true := by decide +kernel

theorem witness_AcceptedWord : (Engine.reset .w8).busy = false := rfl

theorem witness_GeneratorSubBlock : ∃ start held : GenIn 16, start.genStart = true ∧ held.genStart = false :=
  ⟨⟨true, 0, .forward⟩, ⟨false, 0xA001#16, .reflected⟩, rfl, rfl⟩

/-- `gen_start` by `rst` on a busy engine and by a `FLIP` on a ready one; an engine at the start of a run. -/
theorem witness_Generator : (resetting .w8).genStart ⟨true, false, 0⟩ = true ∧
    (Engine.reset .w8).genStart ⟨false, true, 0x000005⟩ = true ∧
    (resetting .w8).busy = true ∧ (resetting .w8).genPhase = .writing ∧ (resetting .w8).genIdx = 0 := by decide

theorem witness_Ports : (Engine.reset .w32).ports.cmdReady = true ∧ (resetting .w32).ports.cmdReady = false := ⟨rfl, rfl⟩

theorem witness_AddBytesSplit : ∃ t, execSeq (addBytesOps []) State.reset = .next t := ⟨_, rfl⟩

end Sys2Proof.Tests
end

/-! # Scope: the order of bits, the transaction, and the clocked engine below it (spec/00_scope.md) -/

/-! ## The command word is read back (spec/30_encoding.md R73 to R78) -/

namespace Sys2Proof

theorem opOf_ctl (i : Instr) : opOf i.ctl = i.opcode :=
  (by decide : ∀ (b : Bool) (o : BitVec 4), opOf (0#3 ++ BitVec.ofBool b ++ o) = o) i.fieldE.toBit i.opcode

theorem rsvOf_ctl (i : Instr) : rsvOf i.ctl = 0#3 :=
  (by decide : ∀ (b : Bool) (o : BitVec 4), rsvOf (0#3 ++ BitVec.ofBool b ++ o) = 0#3) i.fieldE.toBit i.opcode

theorem eOf_ctl (i : Instr) : eOf i.ctl = i.fieldE := by
  have bit : ∀ (b : Bool) (o : BitVec 4), eOf (0#3 ++ BitVec.ofBool b ++ o) = Endian.ofBit b := by decide
  have mode : ∀ m : Endian, Endian.ofBit m.toBit = m := fun m => by cases m <;> rfl
  exact (bit i.fieldE.toBit i.opcode).trans (mode i.fieldE)

theorem fits_setWidth_byte (w : Width) (x : Byte) : Operand.fits w (x.setWidth 32) := by
  have h8 : 2 ^ 8 ≤ 2 ^ w.bits := Nat.pow_le_pow_right (by decide) (by cases w <;> decide)
  rw [Operand.fits, BitVec.toNat_setWidth_of_le (by decide)]
  exact x.isLt.trans_le h8

/-- Both operand fields of a well-formed instruction fit, those its format does not use being 0. -/
theorem fields_fit {w : Width} {i : Instr} (h : i.WellFormed w) :
    Operand.fits w i.fieldA ∧ Operand.fits w i.fieldB := by
  have zero : Operand.fits w 0 := Nat.two_pow_pos w.bits
  cases i with
  | reset => exact ⟨zero, zero⟩
  | setPoly v => exact ⟨h, zero⟩
  | setEnd m => exact ⟨zero, zero⟩
  | setSeed v => exact ⟨h, zero⟩
  | flip => exact ⟨zero, zero⟩
  | addByte x => exact ⟨fits_setWidth_byte w x, zero⟩
  | initRaw p m s => exact h
  | initName n m s => exact h

/-- Nothing of the fields is lost in the width of the word (spec/30_encoding.md R73). -/
theorem toNat_encode {w : Width} {i : Instr} (h : i.WellFormed w) :
    (encode w i).toNat = i.fieldB.toNat * 2 ^ (w.bits + 8) + i.fieldA.toNat * 2 ^ 8 + i.ctl.toNat := by
  obtain ⟨ha, hb⟩ := fields_fit h
  have hc := i.ctl.isLt
  rw [encode, BitVec.toNat_ofNat, Nat.mod_eq_of_lt]
  cases w <;> simp only [Operand.fits, Width.bits, Width.cmdBits] at * <;> omega

theorem ctlOf_encode {w : Width} {i : Instr} (h : i.WellFormed w) : ctlOf (encode w i) = i.ctl := by
  have hc := i.ctl.isLt
  apply BitVec.eq_of_toNat_eq
  rw [ctlOf, BitVec.extractLsb'_toNat, toNat_encode h, Nat.shiftRight_zero]
  cases w <;> simp only [Width.bits] <;> omega

theorem aOf_encode {w : Width} {i : Instr} (h : i.WellFormed w) : (aOf (encode w i)).setWidth 32 = i.fieldA := by
  obtain ⟨ha, _⟩ := fields_fit h
  have hc := i.ctl.isLt
  apply BitVec.eq_of_toNat_eq
  rw [BitVec.toNat_setWidth, aOf, BitVec.extractLsb'_toNat, toNat_encode h, Nat.shiftRight_eq_div_pow]
  cases w <;> simp only [Operand.fits, Width.bits] at * <;> omega

theorem bOf_encode {w : Width} {i : Instr} (h : i.WellFormed w) : (bOf (encode w i)).setWidth 32 = i.fieldB := by
  obtain ⟨ha, hb⟩ := fields_fit h
  have hc := i.ctl.isLt
  apply BitVec.eq_of_toNat_eq
  rw [BitVec.toNat_setWidth, bOf, BitVec.extractLsb'_toNat, toNat_encode h, Nat.shiftRight_eq_div_pow]
  cases w <;> simp only [Operand.fits, Width.bits] at * <;> omega

/-- The decoder reads every well-formed instruction back from its word. -/
theorem decode_encode {w : Width} {i : Instr} (h : i.WellFormed w) : decode w (encode w i) = .ok i := by
  simp only [decode, ctlOf_encode h, aOf_encode h, bOf_encode h, rsvOf_ctl, opOf_ctl, eOf_ctl]
  cases i with
  | addByte x =>
    have : (x.setWidth 32).setWidth 8 = x := by simp
    simp [Instr.opcode, Instr.fieldA, this]
  | _ => rfl

end Sys2Proof

namespace Sys2Proof.Machine

variable {w : Width}

/-! ## `Rev_W` (spec/00_scope.md R9) -/

theorem getLsbD_rev {n k : Nat} (v : BitVec n) (hk : k < n) : (rev v).getLsbD k = v.getLsbD (n - 1 - k) := by
  rw [rev, BitVec.getLsbD_reverse, BitVec.getMsbD_eq_getLsbD, decide_eq_true hk, Bool.true_and]

theorem rev_rev {n : Nat} (v : BitVec n) : rev (rev v) = v := BitVec.reverse_reverse_eq

theorem rev_zero (n : Nat) : rev (0 : BitVec n) = 0 := BitVec.reverse_eq_zero_iff.2 rfl

/-! ## What executing a command or a word does to one engine -/

theorem effect_busy (i : Instr) (e : Engine w) : (e.effect i).busy = e.busy := by
  rcases effect_cases i e with ⟨h, _⟩ | ⟨byte, _, h⟩ | ⟨p, m, s, h, _⟩ | ⟨_, h, _⟩ <;> simp [h]

theorem effect_pending (i : Instr) (e : Engine w) : (e.effect i).pending = e.pending := by
  rcases effect_cases i e with ⟨h, _⟩ | ⟨byte, _, h⟩ | ⟨p, m, s, h, _⟩ | ⟨_, h, _⟩ <;> simp [h]

/-- A command regenerates the table when it calls `Reset()`, and leaves it alone otherwise. -/
theorem effect_table (i : Instr) (e : Engine w) :
    (e.effect i).table = if e.callsReset i then genTable (e.effect i).poly (e.effect i).endian else e.table := by
  rcases effect_cases i e with ⟨h, hr⟩ | ⟨byte, rfl, h⟩ | ⟨p, m, s, h, hr⟩ | ⟨_, h, hr⟩
  · simp [h, hr]
  · simp [h, Engine.callsReset]
  · simp [h, hr]
  · simp [h, hr]

theorem execWord_ok {cmd : Command w} {i : Instr} (h : decode w cmd = .ok i) (e : Engine w) :
    e.execWord cmd = e.effect i := by simp [Engine.execWord, h]

theorem execWord_error {cmd : Command w} {r : Illegal} (h : decode w cmd = .error r) (e : Engine w) :
    e.execWord cmd = e.raise .illegalCommand := by simp [Engine.execWord, h]

/-- `Exec` writes neither `BUSY` nor the generator's state nor the response owed (spec/10_state.md R28). -/
theorem execWord_quiescent (cmd : Command w) {e : Engine w} (h : e.Quiescent) : (e.execWord cmd).Quiescent := by
  obtain ⟨hbusy, hphase, hpending⟩ := h
  have hgen : (e.execWord cmd).genPhase = .idle :=
    (congrArg Generator.phase (execWord_generator cmd e)).trans hphase
  cases hd : decode w cmd with
  | ok i =>
    rw [execWord_ok hd] at hgen ⊢
    exact ⟨(effect_busy i e).trans hbusy, hgen, (effect_pending i e).trans hpending⟩
  | error r =>
    rw [execWord_error hd] at hgen ⊢
    exact ⟨(raise_busy _ e).trans hbusy, hgen, (raise_pending _ e).trans hpending⟩

theorem execWord_table (cmd : Command w) (e : Engine w) :
    (e.execWord cmd).table =
      if e.wordCallsReset cmd then genTable (e.execWord cmd).poly (e.execWord cmd).endian else e.table := by
  cases hd : decode w cmd with
  | ok i => simpa [execWord_ok hd, Engine.wordCallsReset, hd] using effect_table i e
  | error r => simp [execWord_error hd, Engine.wordCallsReset, hd]

/-! ## The transaction of a command word -/

theorem runCommand_ok {s : State} {cmd : Command s.width} {i : Instr} (h : decode s.width cmd = .ok i) :
    runCommand s cmd = exec i s := by simp [runCommand, h]

theorem runCommand_eq (s : State) (cmd : Command s.width) :
    runCommand s cmd = .next (s.withEngine (s.engine.execWord cmd)) := by
  cases hd : decode s.width cmd with
  | ok i => rw [runCommand_ok hd, exec_eq, execWord_ok hd]
  | error r => simp [runCommand, hd, execWord_error hd]

/-- A ready engine takes the word presented and executes it; the presentation is used up. -/
theorem step_command {s : State} {cmd : Command s.width} {later : List (HostEvent s.width)}
    (h : s.engine.busy = false) (hi : s.input = .command cmd :: later) :
    step s = .next (State.withEngine { s with input := later } (s.engine.execWord cmd)) :=
  (step_event h hi).trans (runCommand_eq { s with input := later } cmd)

/-! ## Runs of commands -/

theorem execSeq_cons (i : Instr) (rest : List Instr) (s : State) :
    execSeq (i :: rest) s = execSeq rest (s.withEngine (s.engine.effect i)) := by
  simp [execSeq, exec_eq]

/-- A sequence of commands answers a next state: the engine changed by the commands' effects one after the other, the rest
of the machine as before. -/
theorem execSeq_eq (commands : List Instr) (s : State) :
    execSeq commands s = .next (s.withEngine (commands.foldl (fun e i => e.effect i) s.engine)) := by
  induction commands generalizing s with
  | nil => rfl
  | cons i rest ih => rw [execSeq_cons, ih]; rfl

theorem run_succ_of_step {s t : State} (h : step s = .next t) (k : Nat) :
    Host.Core.run core (k + 1) s = Host.Core.run core k t := by
  have : core.step s = .next t := h
  simp [Host.Core.run, this]

/-- The step on an assembled word executes the command. -/
theorem step_encode {s : State} {i : Instr} {later : List (HostEvent s.width)} (h : s.engine.busy = false)
    (hwf : i.WellFormed s.width) (hi : s.input = .command (encode s.width i) :: later) :
    step s = .next (State.withEngine { s with input := later } (s.engine.effect i)) := by
  rw [step_command h hi, execWord_ok (decode_encode hwf)]

theorem run_encoded {commands : List Instr} {s : State} {later : List (HostEvent s.width)}
    (h : s.engine.busy = false) (hwf : ∀ i ∈ commands, i.WellFormed s.width)
    (hi : s.input = commands.map (fun i => .command (encode s.width i)) ++ later) :
    Host.Core.run core commands.length s = execSeq commands { s with input := later } := by
  induction commands generalizing s with
  | nil =>
    have : s.input = later := hi
    subst this; rfl
  | cons i rest ih =>
    have hstep := step_encode h (hwf i List.mem_cons_self) hi
    rw [List.length_cons, run_succ_of_step hstep, execSeq_cons]
    exact ih (s := ⟨s.width, s.engine.effect i, _⟩) ((effect_busy i s.engine).trans h)
      (fun j hj => hwf j (List.mem_cons_of_mem i hj)) rfl

/-! ## The table written word by word (spec/40_table_generation.md R103, R104) -/

/-- Writing the word of index `k` over a table that is right below `k` makes it right up to `k`. -/
theorem read_write_genEntry {n : Nat} {p : BitVec n} {m : Endian} {t : Table n} {k : Byte}
    (h : ∀ i : Byte, i.toNat < k.toNat → t.read i = genEntry p m i) {i : Byte} (hi : i.toNat ≤ k.toNat) :
    (t.write k (genEntry p m k)).read i = genEntry p m i := by
  by_cases hik : k = i
  · rw [hik, read_write_same]
  · have : k.toNat ≠ i.toNat := fun h' => hik (BitVec.eq_of_toNat_eq h')
    rw [read_write_other t _ hik, h i (by omega)]

/-- Writing the last word completes the table. -/
theorem write_last_genEntry {n : Nat} {p : BitVec n} {m : Endian} {t : Table n} {k : Byte} (hk : k.toNat = 255)
    (h : ∀ i : Byte, i.toNat < k.toNat → t.read i = genEntry p m i) : t.write k (genEntry p m k) = genTable p m :=
  table_ext fun i => by
    have hi : i.toNat ≤ k.toNat := hk ▸ Nat.le_of_lt_succ i.isLt
    rw [read_genTable, read_write_genEntry h hi]

/-- An edge that writes a word before the last. -/
theorem advance_writing {e : Engine w} (hb : e.busy = true) (hp : e.genPhase = .writing) (hi : e.genIdx ≠ 0xFF) :
    e.advance = { e with
      genIdx := e.genIdx + 1, table := e.table.write e.genIdx (genEntry e.poly e.endian e.genIdx), rsp := none } := by
  rw [Engine.advance, edge_writing hb rfl hp, if_neg hi, if_neg hi, ← hp]

/-- The edge that writes the last word. -/
theorem advance_last {e : Engine w} (hb : e.busy = true) (hp : e.genPhase = .writing) (hi : e.genIdx = 0xFF) :
    e.advance = { e with
      genPhase := .done, table := e.table.write e.genIdx (genEntry e.poly e.endian e.genIdx), rsp := none } := by
  rw [Engine.advance, edge_writing hb rfl hp, if_pos hi, if_pos hi, ← hi]

theorem runBusy_ready {e : Engine w} (h : e.busy = false) (n : Nat) : e.runBusy n = e := by
  cases n <;> simp [Engine.runBusy, h]

theorem runBusy_busy {e : Engine w} (h : e.busy = true) (n : Nat) : e.runBusy (n + 1) = e.advance.runBusy n := by
  simp [Engine.runBusy, h]

/-- What a run of the generator comes to: the whole table, the response shown, the generator between runs. -/
def Engine.generated (e : Engine w) : Engine w :=
  Engine.withGenerator e.generator.release (Engine.complete { e with table := genTable e.poly e.endian })

/-- How far the run has come, and the table it began with, have no part in what it comes to. -/
theorem generated_of_progress (e : Engine w) (phase : GenPhase) (idx : Byte) (t : Table w.bits) (r : Option Response) :
    Engine.generated { e with genPhase := phase, genIdx := idx, table := t, rsp := r } = e.generated := rfl

/-- The cycle of `gen_done`. -/
theorem advance_done {e : Engine w} (hb : e.busy = true) (hp : e.genPhase = .done) (ht : e.TableConsistent) :
    e.advance = e.generated := by
  rw [Engine.advance, edge_done hb rfl hp, Engine.generated, ← ht]

/-- From the middle of a run, with `n + 1` words to be written: these writes and the cycle of `gen_done` finish it. -/
theorem runBusy_writing (n : Nat) {e : Engine w} (hb : e.busy = true) (hp : e.genPhase = .writing)
    (hn : e.genIdx.toNat + n = 255) (hw : e.WrittenSoFar) : e.runBusy (n + 2) = e.generated := by
  induction n generalizing e with
  | zero =>
    have hi : e.genIdx = 0xFF := BitVec.eq_of_toNat_eq hn
    rw [runBusy_busy hb, advance_last hb hp hi, write_last_genEntry hn hw, runBusy_busy (by exact hb),
      advance_done (by exact hb) (by exact rfl) (by exact rfl), runBusy_ready rfl]
    exact generated_of_progress e .done e.genIdx _ none
  | succ n ih =>
    have hi : e.genIdx ≠ 0xFF := fun h => by
      have : e.genIdx.toNat = 255 := congrArg BitVec.toNat h
      omega
    have hnext : (e.genIdx + 1).toNat = e.genIdx.toNat + 1 := BitVec.toNat_add_of_lt (by simp; omega)
    rw [runBusy_busy hb, advance_writing hb hp hi, ih (by exact hb) (by exact hp) (by simp only [hnext]; omega)
      (fun i h => read_write_genEntry hw (by simp only [hnext] at h; omega))]
    exact generated_of_progress e e.genPhase (e.genIdx + 1) _ none

/-- A busy engine at the start of a run, whatever its table. -/
theorem drain_writing {e : Engine w} (hb : e.busy = true) (hp : e.genPhase = .writing) (hi : e.genIdx = 0) :
    e.drain = e.generated :=
  runBusy_writing 255 hb hp (by simp [hi]) fun i h => by simp [hi] at h

/-- A busy engine whose generator is idle completes at the next edge. -/
theorem drain_complete {e : Engine w} (hb : e.busy = true) (hp : e.genPhase = .idle) : e.drain = e.complete := by
  rw [Engine.drain, runBusy_busy hb, Engine.advance, edge_complete hb rfl hp, runBusy_ready rfl]

/-! ## An accepted word, run edge by edge -/

/-- What `accept` sets aside, `complete` gives back. -/
theorem complete_accept {cmd : Command w} {e : Engine w} (h : (e.execWord cmd).Quiescent) :
    (e.accept cmd).complete = e.execWord cmd := by
  obtain ⟨hbusy, _, hpending⟩ := h
  simp only [Engine.accept, Engine.complete]
  rw [← hbusy, ← hpending]

/-- A word that does not call `Reset()` starts no run of the generator; drained, it has executed. -/
theorem drain_accept_of_no_reset {cmd : Command w} {e : Engine w} (h : e.Quiescent)
    (hr : e.wordCallsReset cmd = false) : (e.edge ⟨false, true, cmd⟩).drain = e.execWord cmd := by
  have hx := execWord_quiescent cmd h
  obtain ⟨hbusy, hidle, _⟩ := h
  have hgen : (e.execWord cmd).genPhase = .idle := hx.2.1
  have hidx : (e.execWord cmd).genIdx = e.genIdx := congrArg Generator.genIdx (execWord_generator cmd e)
  have hfree : (e.execWord cmd).freeCount = e.freeCount := congrArg Generator.freeCount (execWord_generator cmd e)
  have htable : (e.execWord cmd).table = e.table := by simpa [hr] using execWord_table cmd e
  have hedge : e.edge ⟨false, true, cmd⟩ = e.accept cmd := by
    rw [edge_accept cmd hbusy hidle]
    simp [hr, Engine.accept, ← htable, ← hidx, ← hfree, ← hgen]
  rw [hedge, drain_complete rfl (by exact hgen), complete_accept hx]

/-- A word that calls `Reset()` starts a run of the generator; drained, it has executed, and the generator has released
`GEN_IDX`. -/
theorem drain_accept_of_reset {cmd : Command w} {e : Engine w} (h : e.Quiescent)
    (hr : e.wordCallsReset cmd = true) :
    (e.edge ⟨false, true, cmd⟩).drain = (e.execWord cmd).withGenerator e.generator.release := by
  have hx := execWord_quiescent cmd h
  obtain ⟨hbusy, hidle, _⟩ := h
  have htable : (e.execWord cmd).table = genTable (e.execWord cmd).poly (e.execWord cmd).endian := by
    simpa [hr] using execWord_table cmd e
  rw [edge_accept cmd hbusy hidle, drain_writing rfl (by simp [hr]) (by simp [hr]), ← complete_accept hx,
    Engine.generated, Engine.accept, ← htable]
  rfl

theorem hideGenIdx_withGenerator {e : Engine w} {g : Generator} (h : g.phase = e.genPhase) :
    (e.withGenerator g).hideGenIdx = e.hideGenIdx := by
  simp [Engine.hideGenIdx, Engine.withGenerator, h]

/-- Drained, an accepted word has executed, but for the hidden `GEN_IDX`. -/
theorem hideGenIdx_drain_accept (cmd : Command w) {e : Engine w} (h : e.Quiescent) :
    (e.edge ⟨false, true, cmd⟩).drain.hideGenIdx = (e.execWord cmd).hideGenIdx := by
  cases hr : e.wordCallsReset cmd with
  | false => rw [drain_accept_of_no_reset h hr]
  | true =>
    have hgen : (e.execWord cmd).genPhase = .idle := (execWord_quiescent cmd h).2.1
    rw [drain_accept_of_reset h hr, hideGenIdx_withGenerator hgen.symm]

/-! ## The obligations -/

/-- Settles O48, by induction on the commands: each assembled word decodes to its command, and the step executes it. -/
theorem runOfEncodedCommandsIsTheirSequence : Obligations.RunOfEncodedCommandsIsTheirSequence := by
  intro s commands later hbusy hwf hinput
  exact ⟨⟨_, execSeq_eq commands { s with input := later }⟩, run_encoded hbusy hwf hinput⟩

/-- Settles O52: hiding `GEN_IDX` keeps `BUSY`, so both claims are of the drained engine as the transaction leaves it. -/
theorem clockedEngineRefinesTheTransaction : Obligations.ClockedEngineRefinesTheTransaction := by
  intro s cmd later hq hinput
  have hhide := hideGenIdx_drain_accept cmd hq
  refine ⟨s.engine.execWord cmd, ?_, ?_, hhide⟩
  · exact step_command hq.1 hinput
  · have hbusy : (s.engine.execWord cmd).busy = false := (execWord_quiescent cmd hq).1
    exact (congrArg Engine.busy hhide).trans hbusy

/-- Settles O1: bit `k` of the reverse is bit `k` counted from the top. -/
theorem revReversesBitsAndIsInvolutive : Obligations.RevReversesBitsAndIsInvolutive := by
  have examples : rev 0xE0#8 = 0x07#8 ∧ rev 0xA001#16 = 0x8005#16 ∧ rev 0xEDB88320#32 = 0x04C11DB7#32 ∧
      rev 0x01#8 = 0x80#8 := by decide +kernel
  obtain ⟨h8, h16, h32, h1⟩ := examples
  exact ⟨fun _ v => ⟨fun _ hk => getLsbD_rev v hk, rev_rev v⟩, h8, h16, h32, h1, fun w => rev_zero w.bits⟩

/-- Settles O40: a ready engine takes the word presented, and a word that decodes runs its command. -/
theorem stepRunsTheDecodedCommand : Obligations.StepRunsTheDecodedCommand := by
  intro s cmd later i hbusy hinput hdecode
  exact (step_event hbusy hinput).trans (runCommand_ok (s := { s with input := later }) hdecode)

end Sys2Proof.Machine

/-! # State: the accumulator's meaning, the table's invariant, and the frame of the commands (spec/10_state.md) -/

namespace Sys2Proof.Machine

variable {w : Width}

/-! ## The catalog's range -/

theorem exists_catalogConst {index : Nat} (h : index < nNames w) : ∃ c, catalogConst w index = some c :=
  Option.isSome_iff_exists.1 ((catalogConst_isSome w index).trans (decide_eq_true h))

theorem nNames_le_of_catalogConst_none {index : Nat} (h : catalogConst w index = none) : nNames w ≤ index := by
  simpa [h] using catalogConst_isSome w index

/-! ## What a command does, by the configuration alone -/

/-- Two engines hold the same `POLY`, `END` and `SEED`, the only registers a command decides by. -/
abbrev Engine.SameConfig (f e : Engine w) : Prop := f.poly = e.poly ∧ f.endian = e.endian ∧ f.seed = e.seed

/-- `effect_cases` for all engines of one configuration at once: which of the four effects a command has, and what it
constructs from, is the same for all of them. -/
theorem effect_cases_of_config (i : Instr) (e : Engine w) :
    (∀ f : Engine w, f.SameConfig e → f.effect i = f.respond .ok) ∨
    (∃ byte, i = .addByte byte) ∨
    (∃ poly mode seed, ∀ f : Engine w, f.SameConfig e → f.effect i = f.initRaw poly mode seed) ∨
    (∀ f : Engine w, f.effect i = f.raise .invalidConfiguration) := by
  cases i with
  | reset =>
    refine .inr (.inr (.inl ⟨e.poly, e.endian, e.seed, fun f ⟨hp, hm, hs⟩ => ?_⟩))
    rw [← hp, ← hm, ← hs]; exact cmdReset_eq_initRaw f
  | setPoly v =>
    by_cases h : operandValue w v = e.poly
    · exact .inl fun f ⟨hp, _, _⟩ => by simp only [Engine.effect, h, ← hp, setPoly_same]
    · refine .inr (.inr (.inl ⟨operandValue w v, e.endian, e.seed, fun f ⟨hp, hm, hs⟩ => ?_⟩))
      rw [← hm, ← hs]; exact setPoly_other (hp ▸ h)
  | setEnd m =>
    by_cases h : m = e.endian
    · exact .inl fun f ⟨_, hm, _⟩ => by simp only [Engine.effect, h, ← hm, setEnd_same]
    · refine .inr (.inr (.inl ⟨e.poly, m, e.seed, fun f ⟨hp, hm, hs⟩ => ?_⟩))
      rw [← hp, ← hs]; exact setEnd_other (hm ▸ h)
  | setSeed v =>
    by_cases h : operandValue w v = e.seed
    · exact .inl fun f ⟨_, _, hs⟩ => by simp only [Engine.effect, h, ← hs, setSeed_same]
    · refine .inr (.inr (.inl ⟨e.poly, e.endian, operandValue w v, fun f ⟨hp, hm, hs⟩ => ?_⟩))
      rw [← hp, ← hm]; exact setSeed_other (hs ▸ h)
  | flip =>
    refine .inr (.inr (.inl ⟨rev e.poly, otherMode e.endian, e.seed, fun f ⟨hp, hm, hs⟩ => ?_⟩))
    rw [← hp, ← hm, ← hs]; exact flip_eq_initRaw f
  | addByte byte => exact .inr (.inl ⟨byte, rfl⟩)
  | initRaw p m s => exact .inr (.inr (.inl ⟨_, _, _, fun _ _ => rfl⟩))
  | initName n m s =>
    cases hc : catalogConst w (catalogIndex n) with
    | some c => exact .inr (.inr (.inl ⟨_, _, _, fun f _ => initName_valid hc m _ f⟩))
    | none => exact .inr (.inr (.inr fun f => initName_invalid (nNames_le_of_catalogConst_none hc) m _ f))

/-- With another `COUNT` a command gives the same engine but for `COUNT`. -/
theorem effect_of_count (i : Instr) (e : Engine w) (c : BitVec 64) :
    ∃ c' : BitVec 64, Engine.effect i { e with count := c } = { e.effect i with count := c' } := by
  have hf : Engine.SameConfig { e with count := c } e := ⟨rfl, rfl, rfl⟩
  have he : e.SameConfig e := ⟨rfl, rfl, rfl⟩
  rcases effect_cases_of_config i e with h | ⟨byte, rfl⟩ | ⟨p, m, s, h⟩ | h
  · rw [h _ hf, h _ he]; exact ⟨c, rfl⟩
  · exact ⟨c + 1, rfl⟩
  · rw [h _ hf, h _ he]; exact ⟨0, rfl⟩
  · rw [h, h]; exact ⟨c, rfl⟩

/-- A command carries `BUSY` and `GEN_IDX` through and takes nothing else from them. -/
theorem effect_of_busy_genIdx (i : Instr) (e : Engine w) (b : Bool) (g : Byte) :
    Engine.effect i { e with busy := b, genIdx := g } = { e.effect i with busy := b, genIdx := g } := by
  have hf : Engine.SameConfig { e with busy := b, genIdx := g } e := ⟨rfl, rfl, rfl⟩
  have he : e.SameConfig e := ⟨rfl, rfl, rfl⟩
  rcases effect_cases_of_config i e with h | ⟨byte, rfl⟩ | ⟨p, m, s, h⟩ | h
  · rw [h _ hf, h _ he]; rfl
  · rfl
  · rw [h _ hf, h _ he]; rfl
  · rw [h, h]; rfl

/-! ## What a command leaves alone -/

/-- `Exec` leaves the generator alone: `GEN_IDX`, its phase and the counter of free values. -/
theorem effect_generator (i : Instr) (e : Engine w) : (e.effect i).generator = e.generator := by
  rcases effect_cases i e with ⟨h, _⟩ | ⟨byte, _, h⟩ | ⟨p, m, s, h, _⟩ | ⟨_, h, _⟩ <;> simp [h, Engine.generator]

theorem effect_genIdx (i : Instr) (e : Engine w) : (e.effect i).genIdx = e.genIdx :=
  congrArg Generator.genIdx (effect_generator i e)

theorem effect_genPhase (i : Instr) (e : Engine w) : (e.effect i).genPhase = e.genPhase :=
  congrArg Generator.phase (effect_generator i e)

theorem effect_freeCount (i : Instr) (e : Engine w) : (e.effect i).freeCount = e.freeCount :=
  congrArg Generator.freeCount (effect_generator i e)

theorem respond_same (c : Column) (r : Response) (e : Engine w) : c.Same (e.respond r) e := by
  cases c <;> simp [Column.Same]

theorem raise_invalid_same {c : Column} (h : c ≠ .errInvCfg) (e : Engine w) :
    c.Same (e.raise .invalidConfiguration) e := by
  cases c <;> simp_all [Column.Same]

theorem addByte_same {c : Column} (hacc : c ≠ .acc) (hcount : c ≠ .count) (byte : Byte) (e : Engine w) :
    c.Same (e.addByte byte) e := by
  cases c <;> simp_all [Column.Same]

/-- Construction rewinds, and writes of the configuration only the registers whose value differs. -/
theorem initRaw_same {c : Column} {e : Engine w} {poly : Word w} {mode : Endian} {seed : Word w}
    (hreset : c ∉ mayWrite .reset) (hp : c = .poly → poly = e.poly) (hm : c = .endian → mode = e.endian)
    (hs : c = .seed → seed = e.seed) : c.Same (e.initRaw poly mode seed) e := by
  cases c <;> simp_all [Column.Same, mayWrite]

/-- The access matrix (spec/10_state.md R30): a command keeps every column its row leaves alone. -/
theorem effect_same {i : Instr} {c : Column} (hc : c ∉ mayWrite i) (e : Engine w) : c.Same (e.effect i) e := by
  cases i with
  | reset =>
    rw [Engine.effect, cmdReset_eq_initRaw]
    exact initRaw_same (by simp_all [mayWrite]) (fun _ => rfl) (fun _ => rfl) (fun _ => rfl)
  | setPoly v =>
    by_cases h : operandValue w v = e.poly
    · rw [Engine.effect, h, setPoly_same]; exact respond_same c _ e
    · rw [Engine.effect, setPoly_other h]
      exact initRaw_same (by simp_all [mayWrite]) (by simp_all [mayWrite]) (fun _ => rfl) (fun _ => rfl)
  | setEnd m =>
    by_cases h : m = e.endian
    · rw [Engine.effect, h, setEnd_same]; exact respond_same c _ e
    · rw [Engine.effect, setEnd_other h]
      exact initRaw_same (by simp_all [mayWrite]) (fun _ => rfl) (by simp_all [mayWrite]) (fun _ => rfl)
  | setSeed v =>
    by_cases h : operandValue w v = e.seed
    · rw [Engine.effect, h, setSeed_same]; exact respond_same c _ e
    · rw [Engine.effect, setSeed_other h]
      exact initRaw_same (by simp_all [mayWrite]) (fun _ => rfl) (fun _ => rfl) (by simp_all [mayWrite])
  | flip =>
    rw [Engine.effect, flip_eq_initRaw]
    exact initRaw_same (by simp_all [mayWrite]) (by simp_all [mayWrite]) (by simp_all [mayWrite]) (fun _ => rfl)
  | addByte byte => exact addByte_same (by simp_all [mayWrite]) (by simp_all [mayWrite]) byte e
  | initRaw p m s => refine initRaw_same ?_ ?_ ?_ ?_ <;> simp_all [mayWrite]
  | initName n m s =>
    rw [Engine.effect]
    cases hn : catalogConst w (catalogIndex n) with
    | some k =>
      rw [initName_valid hn]
      refine initRaw_same ?_ ?_ ?_ ?_ <;> simp_all [mayWrite]
    | none =>
      rw [initName_invalid (nNames_le_of_catalogConst_none hn)]
      exact raise_invalid_same (by simp_all [mayWrite]) e

/-! ## The sticky bits (spec/10_state.md R27) -/

theorem effect_of_raisesInvalid {i : Instr} (h : raisesInvalid w i = true) (e : Engine w) :
    e.effect i = e.raise .invalidConfiguration := by
  cases i with
  | initName n m s => exact initName_invalid (by simpa [raisesInvalid] using h) m _ e
  | _ => simp [raisesInvalid] at h

/-- A command sets `ERR.INVCFG` when it raises `InvalidConfiguration`, and never clears it. -/
theorem effect_errInvCfg (i : Instr) (e : Engine w) :
    (e.effect i).errInvCfg = (e.errInvCfg || raisesInvalid w i) := by
  cases hv : raisesInvalid w i with
  | true => simp [effect_of_raisesInvalid hv]
  | false =>
    rcases effect_cases i e with ⟨h, _⟩ | ⟨byte, _, h⟩ | ⟨p, m, s, h, _⟩ | ⟨hv', _⟩
    · simp [h]
    · simp [h]
    · simp [h]
    · simp [hv] at hv'

theorem effect_errIllCmd (i : Instr) (e : Engine w) : (e.effect i).errIllCmd = e.errIllCmd := by
  rcases effect_cases i e with ⟨h, _⟩ | ⟨byte, _, h⟩ | ⟨p, m, s, h, _⟩ | ⟨_, h, _⟩ <;> simp [h]

/-! ## The bytes fed since the last `Reset()` (spec/10_state.md R32) -/

theorem feed_concat {n : Nat} (acc : BitVec n) (tbl : Table n) (m : Endian) (bytes : List Byte) (byte : Byte) :
    feed acc tbl m (bytes ++ [byte]) = addByte (feed acc tbl m bytes) tbl byte m := List.foldl_concat ..

theorem bytesAfter_of_reset {i : Instr} {e : Engine w} (h : e.callsReset i = true) (bytes : List Byte) :
    bytesAfter i e bytes = [] := by
  cases i with
  | addByte byte => simp [Engine.callsReset] at h
  | _ => simp [bytesAfter, h]

theorem bytesAfter_of_no_reset {i : Instr} {e : Engine w} (h : e.callsReset i = false)
    (hadd : ∀ byte, i ≠ .addByte byte) (bytes : List Byte) : bytesAfter i e bytes = bytes := by
  cases i with
  | addByte byte => exact absurd rfl (hadd byte)
  | _ => simp [bytesAfter, h]

theorem addByte_accountsFor {e : Engine w} {bytes : List Byte} (h : e.AccountsFor bytes) (byte : Byte) :
    (e.addByte byte).AccountsFor (bytes ++ [byte]) := by
  obtain ⟨hcount, hacc⟩ := h
  constructor
  · rw [addByte_count, BitVec.toNat_add, hcount, List.length_append]; exact Nat.mod_add_mod ..
  · rw [addByte_acc, addByte_seed, addByte_table, addByte_endian, feed_concat, ← hacc]

theorem initRaw_accountsFor_nil (e : Engine w) (poly : Word w) (mode : Endian) (seed : Word w) :
    (e.initRaw poly mode seed).AccountsFor [] := ⟨rfl, rfl⟩

/-- Every command keeps the accumulator's meaning: it appends the byte fed, starts over with `Reset()`, or touches neither
`COUNT` nor `ACC` nor what `ACC` is computed with. -/
theorem effect_accountsFor {e : Engine w} {bytes : List Byte} (h : e.AccountsFor bytes) (i : Instr) :
    (e.effect i).AccountsFor (bytesAfter i e bytes) := by
  by_cases hadd : ∃ byte, i = .addByte byte
  · obtain ⟨byte, rfl⟩ := hadd
    exact addByte_accountsFor h byte
  · have hne : ∀ byte, i ≠ .addByte byte := fun byte hi => hadd ⟨byte, hi⟩
    rcases effect_cases i e with ⟨he, hr⟩ | ⟨byte, hi, _⟩ | ⟨p, m, s, he, hr⟩ | ⟨_, he, hr⟩
    · rw [he, bytesAfter_of_no_reset hr hne]; exact h
    · exact absurd hi (hne byte)
    · rw [he, bytesAfter_of_reset hr]; exact initRaw_accountsFor_nil e p m s
    · rw [he, bytesAfter_of_no_reset hr hne]; exact h

theorem foldl_effect_accountsFor (commands : List Instr) {e : Engine w} {bytes : List Byte} (h : e.AccountsFor bytes) :
    (commands.foldl (fun e i => e.effect i) e).AccountsFor (bytesAfterSeq commands e bytes) := by
  induction commands generalizing e bytes with
  | nil => exact h
  | cons i rest ih => exact ih (effect_accountsFor h i)

/-! ## The table matches `POLY` and `END` whenever no command is in progress (spec/10_state.md R31) -/

theorem coherent_of_settled {e : Engine w} (h : e.Settled) : e.Coherent := by
  obtain ⟨⟨_, hidle, hpending⟩, htable⟩ := h
  exact ⟨fun _ => ⟨hidle, hpending⟩, fun hw => by simp [hidle] at hw, fun _ => htable⟩

theorem reset_settled (w : Width) : (Engine.reset w).Settled := ⟨⟨rfl, rfl, rfl⟩, rfl⟩

theorem hardwareReset_settled (e : Engine w) : e.hardwareReset.Settled := ⟨⟨rfl, rfl, rfl⟩, rfl⟩

/-- The response shown over a consistent table, with the generator left between runs. -/
theorem withGenerator_complete_settled {e : Engine w} {g : Generator} (hidle : g.phase = .idle) (h : e.TableConsistent) :
    (Engine.withGenerator g e.complete).Settled := ⟨⟨rfl, hidle, rfl⟩, h⟩

theorem generated_settled (e : Engine w) : e.generated.Settled :=
  withGenerator_complete_settled (g := e.generator.release) rfl rfl

/-- A ready and coherent engine is settled. -/
theorem settled_of_coherent {e : Engine w} (hb : e.busy = false) (h : e.Coherent) : e.Settled := by
  obtain ⟨hready, _, htable⟩ := h
  obtain ⟨hidle, hpending⟩ := hready hb
  exact ⟨⟨hb, hidle, hpending⟩, htable (by simp [hidle])⟩

/-- A command regenerates the table, or changes neither it nor what it is generated from. -/
theorem effect_tableConsistent {e : Engine w} (h : e.TableConsistent) (i : Instr) : (e.effect i).TableConsistent := by
  rcases effect_cases i e with ⟨he, _⟩ | ⟨byte, _, he⟩ | ⟨p, m, s, he, _⟩ | ⟨_, he, _⟩
  · rw [he]; exact h
  · rw [he]; exact h
  · rw [he]; rfl
  · rw [he]; exact h

theorem execWord_settled (cmd : Command w) {e : Engine w} (h : e.Settled) : (e.execWord cmd).Settled := by
  obtain ⟨hq, htable⟩ := h
  refine ⟨execWord_quiescent cmd hq, ?_⟩
  cases hd : decode w cmd with
  | ok i => rw [execWord_ok hd]; exact effect_tableConsistent htable i
  | error r => rw [execWord_error hd]; exact htable

/-- Once ready, further internal actions change nothing. -/
theorem runBusy_of_le {e f : Engine w} {m n : Nat} (hmn : m ≤ n) (h : e.runBusy m = f) (hf : f.busy = false) :
    e.runBusy n = f := by
  induction m generalizing e n with
  | zero => subst h; exact runBusy_ready hf n
  | succ m ih =>
    cases hb : e.busy with
    | false => rw [runBusy_ready hb] at h ⊢; exact h
    | true =>
      obtain ⟨n, rfl⟩ := Nat.exists_eq_add_of_le' (Nat.one_le_of_lt hmn)
      rw [runBusy_busy hb] at h ⊢
      exact ih (by omega) h

/-- A busy engine, wherever it stands in a run of the generator, drains to a settled one. -/
theorem drain_settled {e : Engine w} (hb : e.busy = true) (h : e.Coherent) : e.drain.Settled := by
  obtain ⟨_, hwritten, htable⟩ := h
  cases hp : e.genPhase with
  | idle =>
    have ht : e.TableConsistent := htable (by simp [hp])
    rw [drain_complete hb hp]
    exact ⟨⟨rfl, hp, rfl⟩, ht⟩
  | writing =>
    have hidx : e.genIdx.toNat + (255 - e.genIdx.toNat) = 255 := by have := e.genIdx.isLt; omega
    have hrun := runBusy_writing (255 - e.genIdx.toNat) hb hp hidx (hwritten hp)
    have hdrain : e.drain = e.generated := runBusy_of_le (by simp) hrun rfl
    rw [hdrain]; exact generated_settled e
  | done =>
    have hadv : e.advance = e.generated := advance_done hb hp (htable (by simp [hp]))
    rw [Engine.drain, runBusy_busy hb, hadv, runBusy_ready rfl]
    exact generated_settled e

/-- Everything a step can do: drain a busy engine, idle, execute the word presented, or reset. -/
theorem step_cases (s : State) :
    (s.engine.busy = true ∧ step s = .next (s.withEngine s.engine.drain)) ∨
    (s.engine.busy = false ∧ s.input = [] ∧ step s = .next (s.withEngine s.engine.idle)) ∨
    (∃ cmd later, s.engine.busy = false ∧ s.input = .command cmd :: later ∧
      step s = .next (State.withEngine { s with input := later } (s.engine.execWord cmd))) ∨
    (∃ event later, s.engine.busy = false ∧ s.input = event :: later ∧
      (event = .hardwareReset ∨ ∃ cmd, event = .commandThenReset cmd) ∧
      step s = .next (State.withEngine { s with input := later } s.engine.hardwareReset)) := by
  cases hb : s.engine.busy with
  | true => exact .inl ⟨rfl, step_busy hb⟩
  | false =>
    cases hi : s.input with
    | nil => exact .inr (.inl ⟨rfl, rfl, step_idle hb hi⟩)
    | cons event later =>
      cases event with
      | command cmd => exact .inr (.inr (.inl ⟨cmd, later, rfl, rfl, step_command hb hi⟩))
      | hardwareReset => exact .inr (.inr (.inr ⟨_, later, rfl, rfl, .inl rfl, step_event hb hi⟩))
      | commandThenReset cmd => exact .inr (.inr (.inr ⟨_, later, rfl, rfl, .inr ⟨cmd, rfl⟩, step_event hb hi⟩))

theorem step_settled {s t : State} (h : s.engine.Coherent) (hstep : step s = .next t) : t.engine.Settled := by
  rcases step_cases s with ⟨hb, hs⟩ | ⟨hb, _, hs⟩ | ⟨cmd, later, hb, _, hs⟩ | ⟨event, later, _, _, _, hs⟩ <;>
    obtain rfl := Host.Outcome.next.inj (hs.symm.trans hstep)
  · exact drain_settled hb h
  · exact settled_of_coherent hb h
  · exact execWord_settled cmd (settled_of_coherent hb h)
  · exact hardwareReset_settled s.engine

/-! ## `FLIP` after `INIT_NAME` (spec/10_state.md R34) -/

theorem initRaw_initRaw (e : Engine w) (p p' : Word w) (m m' : Endian) (s s' : Word w) :
    (e.initRaw p m s).initRaw p' m' s' = e.initRaw p' m' s' := rfl

/-- A constant's two representations are each other's reversal. -/
theorem rev_representIn (form mode : Endian) (c : Word w) :
    rev (representIn form mode c) = representIn form (otherMode mode) c := by
  cases form <;> cases mode <;> simp [representIn, otherMode, rev_rev]

theorem flip_initName {index : Nat} (h : index < nNames w) (mode : Endian) (seed : Word w) (e : Engine w) :
    (e.initName index mode seed).flip = e.initName index (otherMode mode) seed := by
  obtain ⟨c, hc⟩ := exists_catalogConst h
  rw [initName_valid hc, initName_valid hc, flip_eq_initRaw, initRaw_initRaw]
  simp [rev_representIn]

theorem execSeq_initName_flip {s : State} {name : Operand} (h : name.toNat < nNames s.width) (mode : Endian)
    (seed : Operand) :
    execSeq [.initName name mode seed, .flip] s = exec (.initName name (otherMode mode) seed) s := by
  rw [execSeq_eq, exec_eq]
  exact congrArg (fun e => Host.Outcome.next (s.withEngine e)) (flip_initName h mode (operandValue s.width seed) s.engine)

/-! ## The obligations -/

/-- Settles O35, by induction on the commands: each keeps the accumulator's meaning for the bytes it leaves to account for. -/
theorem accumulatorIsTheCrcOfTheBytesSinceReset : Obligations.AccumulatorIsTheCrcOfTheBytesSinceReset :=
  ⟨fun s commands _ h => ⟨_, execSeq_eq commands s, foldl_effect_accountsFor commands h⟩, fun _ => ⟨rfl, rfl⟩⟩

/-- Settles O49: whatever a step does leaves a settled engine, and a settled engine is coherent. -/
theorem everyStepKeepsTheTableConsistent : Obligations.EveryStepKeepsTheTableConsistent := by
  intro s t h hstep
  have hsettled := step_settled h hstep
  exact ⟨coherent_of_settled hsettled, hsettled⟩

/-- Settles O32: both names read the same constant, and reversing one of its representations gives the other. -/
theorem flipAfterReflectedNameIsForwardName : Obligations.FlipAfterReflectedNameIsForwardName := by
  intro s name seed h
  refine ⟨⟨_, exec_eq _ s, ?_⟩, execSeq_initName_flip h .reflected seed, execSeq_initName_flip h .forward seed⟩
  obtain ⟨c, hc⟩ := exists_catalogConst h
  exact congrArg Engine.endian (initName_valid hc .forward _ s.engine)

/-- Settles O36: the access matrix row by row, and what no command writes. -/
theorem commandsWriteOnlyTheirColumns : Obligations.CommandsWriteOnlyTheirColumns := by
  intro s i
  refine ⟨_, exec_eq i s, fun c hc => effect_same hc s.engine, fun hr k => ?_, effect_busy i _, effect_genIdx i _,
    effect_genPhase i _, effect_pending i _, effect_freeCount i _⟩
  rw [effect_table, if_neg (by simp [hr])]

/-- Settles O37: what a command does is decided by the configuration, and none of its effects reads `COUNT` but to add 1. -/
theorem countFeedsIntoNothing : Obligations.CountFeedsIntoNothing := by
  intro s i c
  obtain ⟨c', hc'⟩ := effect_of_count i s.engine c
  refine ⟨_, c', exec_eq i s, ?_⟩
  rw [← hc']
  exact exec_eq i (s.withEngine { s.engine with count := c })

/-- Settles O39: what a command does is decided by the configuration, and all of its effects carry the two fields through. -/
theorem execIgnoresBusyAndGenIdx : Obligations.ExecIgnoresBusyAndGenIdx := by
  intro s i b g
  refine ⟨_, exec_eq i s, effect_busy i _, effect_genIdx i _, ?_⟩
  rw [← effect_of_busy_genIdx]
  exact exec_eq i (s.withEngine { s.engine with busy := b, genIdx := g })

/-- Settles O44: a legal word sets `ERR.INVCFG` at most, an illegal one `ERR.ILLCMD` only, and `rst` clears both. -/
theorem onlyHardwareResetClearsTheStickyBits : Obligations.OnlyHardwareResetClearsTheStickyBits := by
  refine ⟨fun s cmd later hbusy hinput => ⟨_, step_command hbusy hinput, ?_⟩,
    fun s later hbusy hinput => ⟨_, step_event hbusy hinput, rfl, rfl⟩, fun _ => ⟨rfl, rfl⟩⟩
  cases hd : decode s.width cmd with
  | ok i => simp [execWord_ok hd, effect_errInvCfg, effect_errIllCmd]
  | error r => simp [execWord_error hd]

/-- Settles O46: the reset state is written out with these values. -/
theorem resetValuesAreTheSpecs : Obligations.ResetValuesAreTheSpecs :=
  ⟨rfl, rfl, rfl, rfl, rfl, rfl, fun _ => ⟨rfl, rfl, rfl, rfl, rfl, rfl, rfl⟩, _, rfl⟩

/-- Settles O50: the reset state is settled, so coherent. -/
theorem resetStateIsSettled : Obligations.ResetStateIsSettled :=
  ⟨fun w => ⟨coherent_of_settled (reset_settled w), reset_settled w⟩, reset_settled _⟩

end Sys2Proof.Machine

/-! # Memory: the table written word by word, at every clock edge (spec/20_memory.md R63) -/

namespace Sys2Proof.Machine

variable {w : Width}

/-! ## Coherence, by what an edge finds -/

/-- A busy engine at the start of a run of the generator is coherent, whatever its registers and table: no word is claimed. -/
theorem coherent_of_run_start {e : Engine w} (hb : e.busy = true) (hp : e.genPhase = .writing) (hi : e.genIdx = 0) :
    e.Coherent :=
  ⟨fun h => by simp [hb] at h, fun _ i h => by simp [hi] at h, fun h => absurd hp h⟩

/-- A busy engine whose generator does not write is coherent when its table is consistent. -/
theorem coherent_of_busy_consistent {e : Engine w} (hb : e.busy = true) (hp : e.genPhase ≠ .writing)
    (ht : e.TableConsistent) : e.Coherent :=
  ⟨fun h => by simp [hb] at h, fun h => absurd h hp, fun _ => ht⟩

/-- An edge of the generator's run: the words written reach one further, and with the last one the whole table is right. -/
theorem edge_writing_coherent {e : Engine w} {p : PortIn w} (hb : e.busy = true) (hr : p.rst = false)
    (hp : e.genPhase = .writing) (hw : e.WrittenSoFar) : (e.edge p).Coherent := by
  by_cases hi : e.genIdx = 0xFF
  · rw [edge_writing hb hr hp, if_pos hi, if_pos hi]
    exact coherent_of_busy_consistent hb (fun h => nomatch h) (write_last_genEntry (congrArg BitVec.toNat hi) hw)
  · have hne : e.genIdx.toNat ≠ 255 := fun h => hi (BitVec.eq_of_toNat_eq h)
    have hnext : (e.genIdx + 1).toNat = e.genIdx.toNat + 1 := BitVec.toNat_add_of_lt (by simp; omega)
    rw [edge_writing hb hr hp, if_neg hi, if_neg hi]
    refine ⟨fun h => by simp [hb] at h, fun _ i h => ?_, fun h => absurd rfl h⟩
    exact read_write_genEntry hw (by simp only [hnext] at h; omega)

/-- A busy engine without `rst` goes on with what it is doing. -/
theorem edge_busy_coherent {e : Engine w} {p : PortIn w} (hb : e.busy = true) (hr : p.rst = false) (h : e.Coherent) :
    (e.edge p).Coherent := by
  obtain ⟨_, hwritten, htable⟩ := h
  cases hp : e.genPhase with
  | idle =>
    have ht : e.TableConsistent := htable (by simp [hp])
    rw [edge_complete hb hr hp]
    exact coherent_of_settled ⟨⟨rfl, hp, rfl⟩, ht⟩
  | writing => exact edge_writing_coherent hb hr hp (hwritten hp)
  | done =>
    rw [edge_done hb hr hp]
    exact coherent_of_settled (withGenerator_complete_settled rfl (htable (by simp [hp])))

/-- A word accepted by a settled engine: a run of the generator begins, or the table is still the one `POLY` and `END`
determine. -/
theorem edge_accept_coherent {e : Engine w} (cmd : Command w) (h : e.Settled) :
    (e.edge ⟨false, true, cmd⟩).Coherent := by
  obtain ⟨_, hexec⟩ := execWord_settled cmd h
  obtain ⟨⟨hb, hidle, _⟩, _⟩ := h
  rw [edge_accept cmd hb hidle]
  cases hr : e.wordCallsReset cmd with
  | true => exact coherent_of_run_start rfl rfl rfl
  | false =>
    have htable : (e.execWord cmd).table = e.table := by simpa [hr] using execWord_table cmd e
    exact coherent_of_busy_consistent rfl (fun h => nomatch h) (htable.symm.trans hexec)

/-- A ready engine idles or accepts the word presented. -/
theorem edge_ready_coherent {e : Engine w} {p : PortIn w} (hb : e.busy = false) (hr : p.rst = false) (h : e.Coherent) :
    (e.edge p).Coherent := by
  have hs : e.Settled := settled_of_coherent hb h
  obtain ⟨rst, valid, cmd⟩ := p
  obtain rfl : rst = false := hr
  cases valid with
  | true => exact edge_accept_coherent cmd hs
  | false =>
    obtain ⟨⟨_, hidle, hpending⟩, ht⟩ := hs
    rw [edge_idle cmd hb hidle]
    exact coherent_of_settled ⟨⟨hb, hidle, hpending⟩, ht⟩

/-! ## The obligation -/

/-- Settles O51, by what the edge finds: `rst`, which begins a run from any state; a command in progress, by the generator's
phase; or a ready engine, which idles or accepts a word. -/
theorem everyClockEdgeKeepsCoherence : Obligations.EveryClockEdgeKeepsCoherence := by
  intro w p e h
  cases hr : p.rst with
  | true => rw [edge_rst e hr]; exact coherent_of_run_start rfl rfl rfl
  | false =>
    cases hb : e.busy with
    | true => exact edge_busy_coherent hb hr h
    | false => exact edge_ready_coherent hb hr h

end Sys2Proof.Machine

/-! # Encoding: the command word, the decoder, and the handshake around a word (spec/30_encoding.md) -/

namespace Sys2Proof

variable {w : Width}

/-! ## The fields of a word (spec/30_encoding.md R73, R74) -/

/-- The control byte without its mode bit is the reserved bits and the opcode. -/
theorem toNat_masked_ctl (c : Byte) : (c &&& 0xEF).toNat = (rsvOf c).toNat * 32 + (opOf c).toNat :=
  (by decide +kernel : ∀ c : Byte, (c &&& 0xEF).toNat = (rsvOf c).toNat * 32 + (opOf c).toNat) c

theorem rsvOf_eq_zero_iff (c : Byte) : rsvOf c = 0 ↔ (c &&& 0xEF).toNat < 16 := by
  have hop : (opOf c).toNat < 16 := (opOf c).isLt
  have hzero : rsvOf c = 0 ↔ (rsvOf c).toNat = 0 := BitVec.toNat_inj.symm
  rw [hzero, toNat_masked_ctl]
  omega

theorem toNat_opOf_of_masked {c : Byte} (h : (c &&& 0xEF).toNat < 16) : (opOf c).toNat = (c &&& 0xEF).toNat := by
  rw [toNat_masked_ctl] at h ⊢
  omega

theorem opOf_of_masked {c : Byte} {k : Nat} (h : (c &&& 0xEF).toNat = k) (hk : k < 16 := by decide) :
    opOf c = BitVec.ofNat 4 k := by
  apply BitVec.eq_of_toNat_eq
  rw [toNat_opOf_of_masked (h ▸ hk), h, BitVec.toNat_ofNat, Nat.mod_eq_of_lt hk]

/-- `k` outside 1..8 says that a reserved bit is set or that the opcode is reserved (R79). -/
theorem masked_reserved_iff (c : Byte) :
    ((c &&& 0xEF).toNat = 0 ∨ 8 < (c &&& 0xEF).toNat) ↔ rsvOf c ≠ 0 ∨ opOf c = 0 ∨ 9 ≤ (opOf c).toNat := by
  have hop : (opOf c).toNat < 16 := (opOf c).isLt
  have hrsv : rsvOf c = 0 ↔ (rsvOf c).toNat = 0 := BitVec.toNat_inj.symm
  have hzero : opOf c = 0 ↔ (opOf c).toNat = 0 := BitVec.toNat_inj.symm
  rw [Ne, hrsv, hzero, toNat_masked_ctl]
  omega

/-- An operand field is carried without loss (log entry 2). -/
theorem toNat_word_setWidth (v : Word w) : (v.setWidth 32 : Operand).toNat = v.toNat :=
  BitVec.toNat_setWidth_of_le (by cases w <;> decide)

theorem fits_word_setWidth (v : Word w) : Operand.fits w (v.setWidth 32) := by
  rw [Operand.fits, toNat_word_setWidth]
  exact v.isLt

theorem toNat_aOf (cmd : Command w) : (aOf cmd).toNat = cmd.toNat / 2 ^ 8 % 2 ^ w.bits := by
  rw [aOf, BitVec.extractLsb'_toNat, Nat.shiftRight_eq_div_pow]

theorem toNat_bOf (cmd : Command w) : (bOf cmd).toNat = cmd.toNat / 2 ^ (w.bits + 8) % 2 ^ w.bits := by
  rw [bOf, BitVec.extractLsb'_toNat, Nat.shiftRight_eq_div_pow]

/-- The word of a number has that number's low byte as its control byte. -/
theorem ctlOf_ofNat (w : Width) (c : Nat) : ctlOf (BitVec.ofNat w.cmdBits c) = BitVec.ofNat 8 c := by
  apply BitVec.eq_of_toNat_eq
  rw [ctlOf, BitVec.extractLsb'_toNat, Nat.shiftRight_zero, BitVec.toNat_ofNat, BitVec.toNat_ofNat]
  exact Nat.mod_mod_of_dvd c (Nat.pow_dvd_pow 2 (Nat.le_add_right 8 _))

/-! ## The decoder, by the masked control byte (spec/30_encoding.md R77) -/

/-- The table of R76: the operation of opcode `k` with the operands its format takes from the fields; nothing outside 1..8. -/
def operation (k : Nat) (e : Endian) (a b : Operand) : Option Instr :=
  match k with
  | 1 => some .reset
  | 2 => some (.setPoly a)
  | 3 => some (.setEnd e)
  | 4 => some (.setSeed a)
  | 5 => some .flip
  | 6 => some (.addByte (a.setWidth 8))
  | 7 => some (.initRaw a e b)
  | 8 => some (.initName a e b)
  | _ => none

theorem operation_eq_none_iff (k : Nat) (e : Endian) (a b : Operand) : operation k e a b = none ↔ k = 0 ∨ 8 < k := by
  match k with
  | 0 | 1 | 2 | 3 | 4 | 5 | 6 | 7 | 8 => simp [operation]
  | k + 9 => simp [operation]

/-- An operation depends only on the fields its format uses (R78). -/
theorem operation_congr {k : Nat} {e e' : Endian} {a a' b b' : Operand}
    (he : k = 3 ∨ k = 7 ∨ k = 8 → e = e') (ha : k = 2 ∨ k = 4 ∨ k = 7 ∨ k = 8 → a = a')
    (hbyte : k = 6 → a.setWidth 8 = a'.setWidth 8) (hb : k = 7 ∨ k = 8 → b = b') :
    operation k e a b = operation k e' a' b' := by
  unfold operation
  split <;> simp_all

theorem operation_wellFormed {k : Nat} {e : Endian} {a b : Operand} {i : Instr} (ha : Operand.fits w a)
    (hb : Operand.fits w b) (h : operation k e a b = some i) : i.WellFormed w := by
  unfold operation at h
  split at h <;> cases h <;> simp [Instr.WellFormed, ha, hb]

/-- The decoder is the table of R76 on the masked control byte and the operand fields. -/
theorem toOption_decode (cmd : Command w) :
    (decode w cmd).toOption =
      operation (ctlOf cmd &&& 0xEF).toNat (eOf (ctlOf cmd)) ((aOf cmd).setWidth 32) ((bOf cmd).setWidth 32) := by
  by_cases hr : rsvOf (ctlOf cmd) = 0#3
  · rw [← toNat_opOf_of_masked ((rsvOf_eq_zero_iff _).1 hr)]
    simp only [decode, hr, ne_eq, not_true, if_false]
    generalize (opOf (ctlOf cmd)).toNat = k
    match k with
    | 0 | 1 | 2 | 3 | 4 | 5 | 6 | 7 | 8 | _ + 9 => rfl
  · have hk : ¬ (ctlOf cmd &&& 0xEF).toNat < 16 := fun h => hr ((rsvOf_eq_zero_iff _).2 h)
    rw [(operation_eq_none_iff ..).2 (.inr (by omega))]
    simp [decode, hr, Except.toOption]

theorem decode_ok_iff {cmd : Command w} {i : Instr} :
    decode w cmd = .ok i ↔
      operation (ctlOf cmd &&& 0xEF).toNat (eOf (ctlOf cmd)) ((aOf cmd).setWidth 32) ((bOf cmd).setWidth 32) = some i := by
  rw [← toOption_decode]
  cases decode w cmd <;> simp [Except.toOption]

theorem decode_error_iff {cmd : Command w} :
    (∃ reason, decode w cmd = .error reason) ↔ (ctlOf cmd &&& 0xEF).toNat = 0 ∨ 8 < (ctlOf cmd &&& 0xEF).toNat := by
  rw [← operation_eq_none_iff, ← toOption_decode]
  cases decode w cmd <;> simp [Except.toOption]

theorem decode_wellFormed {cmd : Command w} {i : Instr} (h : decode w cmd = .ok i) : i.WellFormed w :=
  operation_wellFormed (fits_word_setWidth _) (fits_word_setWidth _) (decode_ok_iff.1 h)

/-- Whether a word is legal is in its control byte alone (R79). -/
theorem isOk_decode (cmd : Command w) :
    (decode w cmd).isOk = decide (0 < (ctlOf cmd &&& 0xEF).toNat ∧ (ctlOf cmd &&& 0xEF).toNat ≤ 8) := by
  have herr := decode_error_iff (cmd := cmd)
  cases hd : decode w cmd with
  | ok i =>
    have : ¬ ((ctlOf cmd &&& 0xEF).toNat = 0 ∨ 8 < (ctlOf cmd &&& 0xEF).toNat) := fun h => by
      simpa [hd] using herr.2 h
    exact (decide_eq_true (by omega)).symm
  | error r =>
    have := herr.1 ⟨r, hd⟩
    exact (decide_eq_false (by omega)).symm

/-- Words that agree on the masked control byte and on the fields their format uses encode the same operation, or none (R78). -/
theorem decode_ok_congr {cmd cmd' : Command w} (hctl : ctlOf cmd &&& 0xEF = ctlOf cmd' &&& 0xEF)
    (he : opOf (ctlOf cmd) = 3 ∨ opOf (ctlOf cmd) = 7 ∨ opOf (ctlOf cmd) = 8 → eOf (ctlOf cmd) = eOf (ctlOf cmd'))
    (ha : opOf (ctlOf cmd) = 2 ∨ opOf (ctlOf cmd) = 4 ∨ opOf (ctlOf cmd) = 7 ∨ opOf (ctlOf cmd) = 8 → aOf cmd = aOf cmd')
    (hbyte : opOf (ctlOf cmd) = 6 → (aOf cmd).setWidth 8 = (aOf cmd').setWidth 8)
    (hb : opOf (ctlOf cmd) = 7 ∨ opOf (ctlOf cmd) = 8 → bOf cmd = bOf cmd') (i : Instr) :
    decode w cmd = .ok i ↔ decode w cmd' = .ok i := by
  rw [decode_ok_iff, decode_ok_iff, ← hctl]
  refine Eq.congr_left (operation_congr (fun h => he ?_) (fun h => congrArg _ (ha ?_)) (fun h => ?_)
    (fun h => congrArg _ (hb ?_)))
  · exact h.imp (opOf_of_masked ·) (.imp (opOf_of_masked ·) (opOf_of_masked ·))
  · exact h.imp (opOf_of_masked ·) (.imp (opOf_of_masked ·) (.imp (opOf_of_masked ·) (opOf_of_masked ·)))
  · rw [BitVec.setWidth_setWidth_of_le _ (by decide), BitVec.setWidth_setWidth_of_le _ (by decide)]
    exact hbyte (opOf_of_masked h)
  · exact h.imp (opOf_of_masked ·) (opOf_of_masked ·)

/-! ## The unused fields of an assembled word (spec/30_encoding.md R78) -/

theorem encode_eq_ctl (w : Width) {i : Instr} (ha : i.fieldA = 0) (hb : i.fieldB = 0) :
    encode w i = BitVec.ofNat w.cmdBits i.ctl.toNat := by
  simp [encode, ha, hb]

theorem eOf_encode {i : Instr} (h : i.WellFormed w) : eOf (ctlOf (encode w i)) = i.fieldE := by
  rw [ctlOf_encode h, eOf_ctl]

theorem toNat_aOf_encode {i : Instr} (h : i.WellFormed w) : (aOf (encode w i)).toNat = i.fieldA.toNat := by
  rw [← aOf_encode h, toNat_word_setWidth]

theorem aOf_encode_eq_zero {i : Instr} (h : i.WellFormed w) (ha : i.fieldA = 0) : aOf (encode w i) = 0 := by
  apply BitVec.eq_of_toNat_eq
  rw [toNat_aOf_encode h, ha]
  rfl

theorem bOf_encode_eq_zero {i : Instr} (h : i.WellFormed w) (hb : i.fieldB = 0) : bOf (encode w i) = 0 := by
  apply BitVec.eq_of_toNat_eq
  rw [← toNat_word_setWidth, bOf_encode h, hb]
  rfl

end Sys2Proof

namespace Sys2Proof.Machine

variable {w : Width}

/-! ## What a word does, by the operation it encodes -/

/-- Words that encode the same operation, or none, have the same effect. -/
theorem execWord_congr {cmd cmd' : Command w} (h : ∀ i, decode w cmd = .ok i ↔ decode w cmd' = .ok i) (e : Engine w) :
    e.execWord cmd = e.execWord cmd' := by
  cases hd : decode w cmd with
  | ok i => rw [execWord_ok hd, execWord_ok ((h i).1 hd)]
  | error r =>
    cases hd' : decode w cmd' with
    | ok i => exact absurd ((h i).2 hd') (by simp [hd])
    | error r' => rw [execWord_error hd, execWord_error hd']

/-- Every accepted word owes a response (spec/60_exceptions.md R190). -/
theorem execWord_rsp_isSome (cmd : Command w) (e : Engine w) : (e.execWord cmd).rsp.isSome = true := by
  cases hd : decode w cmd with
  | ok i =>
    rw [execWord_ok hd]
    rcases effect_cases i e with ⟨h, _⟩ | ⟨byte, _, h⟩ | ⟨p, m, s, h, _⟩ | ⟨_, h, _⟩ <;> simp [h]
  | error r => simp [execWord_error hd]

/-! ## The handshake, edge by edge (spec/30_encoding.md R71) -/

/-- Acceptance, whatever the generator is doing: busy, silent, and the word's response owed. -/
theorem edge_accept_handshake (cmd : Command w) {e : Engine w} (h : e.busy = false) :
    (e.edge ⟨false, true, cmd⟩).busy = true ∧ (e.edge ⟨false, true, cmd⟩).rsp = none ∧
    (e.edge ⟨false, true, cmd⟩).pending = (e.execWord cmd).rsp := by
  have hk : e.control ⟨false, true, cmd⟩ = e.accept cmd := by simp [Engine.control, h]
  rw [Engine.edge, hk]
  exact ⟨rfl, rfl, rfl⟩

/-- The internal actions a busy engine has still to take: the words left to write, then the completion (log entry 6). -/
def Engine.actionsLeft (e : Engine w) : Nat := if e.genPhase = .writing then 257 - e.genIdx.toNat else 1

theorem actionsLeft_bounds (e : Engine w) : 1 ≤ e.actionsLeft ∧ e.actionsLeft ≤ 257 := by
  have := e.genIdx.isLt
  unfold Engine.actionsLeft
  split <;> omega

/-- With more than one action left the engine stays busy and silent, and goes on owing its response. -/
theorem advance_waits {e : Engine w} (hb : e.busy = true) (h : 1 < e.actionsLeft) :
    e.advance.busy = true ∧ e.advance.rsp = none ∧ e.advance.pending = e.pending ∧
    e.advance.actionsLeft + 1 = e.actionsLeft := by
  have hp : e.genPhase = .writing := by
    by_contra hp
    simp [Engine.actionsLeft, hp] at h
  by_cases hi : e.genIdx = 0xFF
  · rw [advance_last hb hp hi]
    exact ⟨hb, rfl, rfl, by simp [Engine.actionsLeft, hp, hi]⟩
  · have hne : e.genIdx.toNat ≠ 255 := fun h => hi (BitVec.eq_of_toNat_eq h)
    have hlt := e.genIdx.isLt
    have hnext : (e.genIdx + 1).toNat = e.genIdx.toNat + 1 := BitVec.toNat_add_of_lt (by simp; omega)
    rw [advance_writing hb hp hi]
    refine ⟨hb, rfl, rfl, ?_⟩
    simp only [Engine.actionsLeft, hp, if_true, hnext]
    omega

/-- The last action: the engine is ready and shows the response it owes. -/
theorem advance_completes {e : Engine w} (hb : e.busy = true) (h : e.actionsLeft = 1) :
    e.advance.busy = false ∧ e.advance.rsp = e.pending := by
  cases hp : e.genPhase with
  | idle => rw [Engine.advance, edge_complete hb rfl hp]; exact ⟨rfl, rfl⟩
  | done => rw [Engine.advance, edge_done hb rfl hp]; exact ⟨rfl, rfl⟩
  | writing =>
    have := e.genIdx.isLt
    simp only [Engine.actionsLeft, hp, if_true] at h
    omega

/-- A response is shown for one edge only: a ready engine with nothing presented shows none after the next. -/
theorem advance_ready_rsp {e : Engine w} (hb : e.busy = false) : e.advance.rsp = none := by
  have hk : e.control ⟨false, false, 0⟩ = e.idle := by simp [Engine.control, hb]
  rw [Engine.advance, Engine.edge, hk]
  rfl

theorem quietEdges_succ (k : Nat) (e : Engine w) : e.quietEdges (k + 1) = (e.quietEdges k).advance :=
  Function.iterate_succ_apply' ..

/-- Before its last action a busy and silent engine stays so, each edge taking one action. -/
theorem quietEdges_waits {e : Engine w} (hb : e.busy = true) (hr : e.rsp = none) {k : Nat} (hk : k < e.actionsLeft) :
    (e.quietEdges k).busy = true ∧ (e.quietEdges k).rsp = none ∧ (e.quietEdges k).pending = e.pending ∧
    (e.quietEdges k).actionsLeft + k = e.actionsLeft := by
  induction k with
  | zero => exact ⟨hb, hr, rfl, rfl⟩
  | succ k ih =>
    obtain ⟨hbusy, _, hpending, hleft⟩ := ih (by omega)
    obtain ⟨hbusy', hrsp', hpending', hleft'⟩ := advance_waits hbusy (by omega)
    rw [quietEdges_succ]
    exact ⟨hbusy', hrsp', hpending'.trans hpending, by omega⟩

/-- After its last action it is ready and shows the response it owed. -/
theorem quietEdges_completes {e : Engine w} (hb : e.busy = true) (hr : e.rsp = none) :
    (e.quietEdges e.actionsLeft).busy = false ∧ (e.quietEdges e.actionsLeft).rsp = e.pending := by
  obtain ⟨n, hn⟩ := Nat.exists_eq_add_of_le' (actionsLeft_bounds e).1
  obtain ⟨hbusy, _, hpending, hleft⟩ := quietEdges_waits hb hr (k := n) (by omega)
  obtain ⟨hready, hrsp⟩ := advance_completes hbusy (by omega)
  rw [hn, quietEdges_succ]
  exact ⟨hready, hrsp.trans hpending⟩

/-! ## The observation ports (spec/30_encoding.md R72) -/

theorem observe_ready {α : Type} {e : Engine w} (h : e.cmdReady = true) (value : α) : e.observe value = some value := by
  simp [Engine.observe, h]

theorem observe_busy {α : Type} {e : Engine w} (h : e.cmdReady = false) (value : α) : e.observe value = none := by
  simp [Engine.observe, h]

theorem toBit_eq_decide (m : Endian) : m.toBit = decide (m = .reflected) := by cases m <;> rfl

theorem statusBits_getLsbD (e : Engine w) :
    e.statusBits.getLsbD 0 = e.busy ∧ e.statusBits.getLsbD 1 = e.errInvCfg ∧ e.statusBits.getLsbD 2 = e.errIllCmd := by
  have bits : ∀ x y z : Bool, (BitVec.ofBool x ++ BitVec.ofBool y ++ BitVec.ofBool z).getLsbD 0 = z ∧
      (BitVec.ofBool x ++ BitVec.ofBool y ++ BitVec.ofBool z).getLsbD 1 = y ∧
      (BitVec.ofBool x ++ BitVec.ofBool y ++ BitVec.ofBool z).getLsbD 2 = x := by decide
  exact bits e.errIllCmd e.errInvCfg e.busy

/-! ## The obligations -/

/-- Settles O12: each field is read back from its place in the word. -/
theorem decodeOfEncodeIsTheInstruction : Obligations.DecodeOfEncodeIsTheInstruction := fun _ _ h => decode_encode h

/-- Settles O13: the operands read are `W`-bit fields, so they fit, and what fits is read back from its word. -/
theorem decodedInstructionsAreWellFormed : Obligations.DecodedInstructionsAreWellFormed := fun _ _ _ h =>
  have hwf := decode_wellFormed h
  ⟨hwf, decode_encode hwf⟩

/-- Settles O14: the rule's operands are the fields, and the decoder is the table on them. -/
theorem decodeIsByMaskedControlByte : Obligations.DecodeIsByMaskedControlByte := by
  intro w cmd ctl k e a b
  have ha : (aOf cmd).setWidth 32 = a := BitVec.eq_of_toNat_eq <| by
    rw [BitVec.toNat_setWidth, toNat_aOf, BitVec.toNat_ofNat]
  have hb : (bOf cmd).setWidth 32 = b := BitVec.eq_of_toNat_eq <| by
    rw [BitVec.toNat_setWidth, toNat_bOf, BitVec.toNat_ofNat]
  have hbyte : a.setWidth 8 = BitVec.ofNat 8 (cmd.toNat / 2 ^ 8 % 2 ^ 8) := BitVec.eq_of_toNat_eq <| by
    simp only [a, BitVec.toNat_setWidth, BitVec.toNat_ofNat]
    cases w <;> simp only [Width.bits] <;> omega
  have hdecode : ∀ {n i}, operation n e a b = some i → k = n → decode w cmd = .ok i := fun hop hk =>
    decode_ok_iff.2 (by rw [ha, hb, show (ctlOf cmd &&& 0xEF).toNat = _ from hk]; exact hop)
  exact ⟨hdecode rfl, hdecode rfl, hdecode rfl, hdecode rfl, hdecode rfl, hbyte ▸ hdecode rfl, hdecode rfl, hdecode rfl,
    decode_error_iff.2⟩

/-- Settles O15: the table takes from a word only the fields its format uses, and the word's effect is that of its operation. -/
theorem unusedFieldsAreIgnored : Obligations.UnusedFieldsAreIgnored := by
  refine ⟨fun s cmd cmd' later hctl he ha hbyte hb => ?_, fun w i h => ⟨?_, ?_, ?_, ?_⟩⟩
  · have hdecode := decode_ok_congr hctl he ha hbyte hb
    refine ⟨hdecode, fun hbusy => ?_⟩
    rw [step_command (s := { s with input := .command cmd :: later }) hbusy rfl,
      step_command (s := { s with input := .command cmd' :: later }) hbusy rfl]
    exact congrArg (fun e => Host.Outcome.next (State.withEngine { s with input := later } e)) (execWord_congr hdecode _)
  · rintro (rfl | rfl) <;> exact encode_eq_ctl w rfl rfl
  · rintro v (rfl | rfl) <;> exact ⟨eOf_encode h, bOf_encode_eq_zero h rfl⟩
  · rintro e rfl
    exact ⟨aOf_encode_eq_zero h rfl, bOf_encode_eq_zero h rfl⟩
  · rintro byte rfl
    refine ⟨eOf_encode h, (toNat_aOf_encode h).trans ?_, bOf_encode_eq_zero h rfl⟩
    exact BitVec.toNat_setWidth_of_le (by decide)

/-- Settles O16: legality is in the control byte alone, so one count over the 256 bytes serves every width. -/
theorem illegalWordsAreExactlyTheReservedOnes : Obligations.IllegalWordsAreExactlyTheReservedOnes := by
  have illegal_iff : ∀ {w : Width} {cmd : Command w}, (∃ reason, decode w cmd = .error reason) ↔
      rsvOf (ctlOf cmd) ≠ 0 ∨ opOf (ctlOf cmd) = 0 ∨ 9 ≤ (opOf (ctlOf cmd)).toNat :=
    decode_error_iff.trans (masked_reserved_iff _)
  refine ⟨fun w cmd => illegal_iff, fun s cmd later hbusy hinput h => ?_, fun w => ?_, fun w => ?_⟩
  · obtain ⟨reason, hd⟩ := illegal_iff.2 h
    rw [step_command hbusy hinput, execWord_error hd]
    rfl
  · exact decode_error_iff.2 (.inl (by rw [show ctlOf (0 : Command w) = 0 from ctlOf_ofNat w 0]; rfl))
  · simp only [isOk_decode, ctlOf_ofNat]
    decide +kernel

/-- Settles O55: the engine takes one action an edge, and shows the response owed since acceptance at the last. -/
theorem acceptedWordAnswersAfterBoundedEdges : Obligations.AcceptedWordAnswersAfterBoundedEdges := by
  intro w e cmd h
  obtain ⟨hbusy, hrsp, hpending⟩ := edge_accept_handshake cmd h
  obtain ⟨hready, hshown⟩ := quietEdges_completes hbusy hrsp
  obtain ⟨hone, hbound⟩ := actionsLeft_bounds (e.edge ⟨false, true, cmd⟩)
  refine ⟨_, hone, hbound, fun k hk => ?_, by simp [Engine.cmdReady, hready], hshown.trans hpending, ?_, ?_⟩
  · obtain ⟨hb, hr, _, _⟩ := quietEdges_waits hbusy hrsp hk
    simp [Engine.cmdReady, Engine.rspValid, hb, hr]
  · rw [Engine.rspValid, hshown, hpending]
    exact execWord_rsp_isSome cmd e
  · rw [Engine.rspValid, quietEdges_succ, advance_ready_rsp hready]
    rfl

/-- Settles O11: each word is decoded. -/
theorem workedEncodingsDecode : Obligations.WorkedEncodingsDecode := by
  unfold Obligations.WorkedEncodingsDecode
  decide

/-- Settles O54, by the generator's phase: in none does the edge read the command port, and only completion shows a response. -/
theorem busyEngineIgnoresTheCommandPort : Obligations.BusyEngineIgnoresTheCommandPort := by
  intro w e p q hb hp hq
  cases hphase : e.genPhase with
  | idle =>
    rw [edge_complete hb hp hphase, edge_complete hb hq hphase]
    exact ⟨rfl, fun _ => rfl⟩
  | writing =>
    rw [edge_writing hb hp hphase, edge_writing hb hq hphase]
    exact ⟨rfl, fun h => nomatch h⟩
  | done =>
    rw [edge_done hb hp hphase, edge_done hb hq hphase]
    exact ⟨rfl, fun _ => rfl⟩

/-- Settles O58: every observation port is gated by readiness. -/
theorem portsShowTheRegistersWhenReady : Obligations.PortsShowTheRegistersWhenReady := by
  intro w e
  obtain ⟨hbit0, hbit1, hbit2⟩ := statusBits_getLsbD e
  refine ⟨fun h => ?_, fun h => ?_⟩
  · have hb : e.busy = false := by simpa [Engine.ports, Engine.cmdReady] using h
    have hend := (observe_ready h e.endian.toBit).trans (congrArg some (toBit_eq_decide e.endian))
    exact ⟨observe_ready h _, observe_ready h _, hend, observe_ready h _, observe_ready h _,
      e.statusBits, observe_ready h _, hbit0.trans hb, hbit1, hbit2⟩
  · have hb : e.busy = true := by simpa [Engine.ports, Engine.cmdReady] using h
    exact ⟨observe_busy h _, observe_busy h _, observe_busy h _, observe_busy h _, observe_busy h _, observe_busy h _, hb⟩

end Sys2Proof.Machine

/-! # Table generation: one entry, the whole table, and the generator that writes it (spec/40_table_generation.md) -/

namespace Sys2Proof.Machine

variable {n : Nat} {w : Width}

theorem eight_le_bits (w : Width) : 8 ≤ w.bits := by cases w <;> decide

/-! ## The bit-steps on unsigned integers (spec/40_table_generation.md R101, R102) -/

theorem toNat_shiftLeft_eq_shl (v : BitVec n) (k : Nat) : (v <<< k).toNat = Num.shl n v.toNat k := by
  rw [BitVec.toNat_shiftLeft, Nat.shiftLeft_eq, Num.shl, Num.trunc]

theorem toNat_ushiftRight_eq_shr (v : BitVec n) (k : Nat) : (v >>> k).toNat = Num.shr v.toNat k := by
  rw [BitVec.toNat_ushiftRight, Nat.shiftRight_eq_div_pow, Num.shr]

/-- A bit of a word, by the arithmetic that the pseudocode tests it with. -/
theorem getLsbD_iff_div_mod (v : BitVec n) (k : Nat) : v.getLsbD k = true ↔ v.toNat / 2 ^ k % 2 = 1 := by
  rw [← BitVec.testBit_toNat, Nat.testBit_eq_decide_div_mod_eq, decide_eq_true_iff]

theorem toNat_stepForward (p v : BitVec n) : (stepForward p v).toNat = Num.stepForward n p.toNat v.toNat := by
  have htest : v.msb = true ↔ v.toNat / 2 ^ (n - 1) % 2 = 1 := by
    rw [BitVec.msb_eq_getLsbD_last, getLsbD_iff_div_mod]
  unfold stepForward Num.stepForward
  by_cases h : v.msb = true
  · rw [if_pos h, if_pos (htest.1 h), BitVec.toNat_xor, toNat_shiftLeft_eq_shl]
  · rw [if_neg h, if_neg (mt htest.2 h), toNat_shiftLeft_eq_shl]

theorem toNat_stepReflected (p v : BitVec n) : (stepReflected p v).toNat = Num.stepReflected p.toNat v.toNat := by
  have htest : v.getLsbD 0 = true ↔ v.toNat % 2 = 1 := by
    rw [getLsbD_iff_div_mod, Nat.pow_zero, Nat.div_one]
  unfold stepReflected Num.stepReflected
  by_cases h : v.getLsbD 0 = true
  · rw [if_pos h, if_pos (htest.1 h), BitVec.toNat_xor, toNat_ushiftRight_eq_shr]
  · rw [if_neg h, if_neg (mt htest.2 h), toNat_ushiftRight_eq_shr]

theorem toNat_genEntry_forward (hn : 8 ≤ n) (p : BitVec n) (i : Byte) :
    (genEntry p .forward i).toNat = Num.genEntryForward n p.toNat i.toNat := by
  have hsteps : Function.Semiconj BitVec.toNat (stepForward p)^[8] (Num.stepForward n p.toNat)^[8] :=
    Function.Semiconj.iterate_right (toNat_stepForward p) 8
  have hplace : (placeByte .forward i : BitVec n).toNat = Num.shl n i.toNat (n - 8) := by
    rw [placeByte, toNat_shiftLeft_eq_shl, BitVec.toNat_setWidth_of_le hn]
  exact (hsteps _).trans (congrArg _ hplace)

theorem toNat_genEntry_reflected (hn : 8 ≤ n) (p : BitVec n) (i : Byte) :
    (genEntry p .reflected i).toNat = Num.genEntryReflected p.toNat i.toNat := by
  have hsteps : Function.Semiconj BitVec.toNat (stepReflected p)^[8] (Num.stepReflected p.toNat)^[8] :=
    Function.Semiconj.iterate_right (toNat_stepReflected p) 8
  exact (hsteps _).trans (congrArg _ (BitVec.toNat_setWidth_of_le hn))

/-! ## Linearity (spec/40_table_generation.md R106) -/

/-- XORing the polynomial in where a bit is set is linear in the word and its bit together. -/
theorem xor_ite_xor (a b : Bool) (u v p : BitVec n) :
    (if (a ^^ b) = true then (u ^^^ v) ^^^ p else u ^^^ v) =
      (if a = true then u ^^^ p else u) ^^^ (if b = true then v ^^^ p else v) := by
  cases a with
  | false => cases b with
    | false => rfl
    | true => exact BitVec.xor_assoc u v p
  | true => cases b with
    | false => show u ^^^ v ^^^ p = u ^^^ p ^^^ v; ac_rfl
    | true =>
      show u ^^^ v = u ^^^ p ^^^ (v ^^^ p)
      rw [BitVec.xor_comm v p, BitVec.xor_assoc, ← BitVec.xor_assoc p, BitVec.xor_self, BitVec.zero_xor]

theorem stepForward_xor (p u v : BitVec n) : stepForward p (u ^^^ v) = stepForward p u ^^^ stepForward p v := by
  rw [stepForward, BitVec.msb_xor, BitVec.shiftLeft_xor_distrib]
  exact xor_ite_xor u.msb v.msb _ _ p

theorem stepReflected_xor (p u v : BitVec n) :
    stepReflected p (u ^^^ v) = stepReflected p u ^^^ stepReflected p v := by
  rw [stepReflected, BitVec.getLsbD_xor, BitVec.ushiftRight_xor_distrib]
  exact xor_ite_xor (u.getLsbD 0) (v.getLsbD 0) _ _ p

theorem bitStep_xor (p : BitVec n) (e : Endian) (u v : BitVec n) :
    bitStep p e (u ^^^ v) = bitStep p e u ^^^ bitStep p e v := by
  cases e with
  | forward => exact stepForward_xor p u v
  | reflected => exact stepReflected_xor p u v

theorem iterate_bitStep_xor (p : BitVec n) (e : Endian) (k : Nat) (u v : BitVec n) :
    (bitStep p e)^[k] (u ^^^ v) = (bitStep p e)^[k] u ^^^ (bitStep p e)^[k] v :=
  Function.Semiconj₂.iterate (bitStep_xor p e) k u v

theorem placeByte_xor (e : Endian) (i j : Byte) :
    (placeByte e (i ^^^ j) : BitVec n) = placeByte e i ^^^ placeByte e j := by
  cases e with
  | forward => simp only [placeByte, BitVec.setWidth_xor, BitVec.shiftLeft_xor_distrib]
  | reflected => exact BitVec.setWidth_xor

theorem genEntry_xor (p : BitVec n) (e : Endian) (i j : Byte) :
    genEntry p e (i ^^^ j) = genEntry p e i ^^^ genEntry p e j := by
  rw [genEntry, placeByte_xor, iterate_bitStep_xor, genEntry, genEntry]

theorem genEntry_zero (p : BitVec n) (e : Endian) : genEntry p e 0 = 0 :=
  calc genEntry p e 0 = genEntry p e (0 ^^^ 0) := by rw [BitVec.xor_self]; rfl
    _ = 0 := by rw [genEntry_xor, BitVec.xor_self]; rfl

/-- A byte is the XOR of its set bits. -/
theorem foldl_xor_setBits (i : Byte) :
    ((List.range 8).filter i.getLsbD).foldl (fun b k => b ^^^ BitVec.ofNat 8 (2 ^ k)) 0 = i :=
  (by decide +kernel : ∀ i : Byte,
    ((List.range 8).filter i.getLsbD).foldl (fun b k => b ^^^ BitVec.ofNat 8 (2 ^ k)) 0 = i) i

theorem genEntry_eq_foldl_setBits (p : BitVec n) (e : Endian) (i : Byte) :
    genEntry p e i =
      ((List.range 8).filter i.getLsbD).foldl (fun v k => v ^^^ genEntry p e (BitVec.ofNat 8 (2 ^ k))) 0 := by
  have hom := List.foldl_hom (genEntry p e) (g₁ := fun b k => b ^^^ BitVec.ofNat 8 (2 ^ k))
    (g₂ := fun v k => v ^^^ genEntry p e (BitVec.ofNat 8 (2 ^ k))) (l := (List.range 8).filter i.getLsbD) (init := 0)
    fun b k => (genEntry_xor p e b (BitVec.ofNat 8 (2 ^ k))).symm
  rw [genEntry_zero, foldl_xor_setBits] at hom
  exact hom.symm

/-! ## The two branches are mirror images (spec/40_table_generation.md R105) -/

theorem rev_xor (u v : BitVec n) : rev (u ^^^ v) = rev u ^^^ rev v := by
  apply BitVec.eq_of_getLsbD_eq
  intro k _
  simp only [rev, BitVec.getLsbD_reverse, BitVec.getLsbD_xor, BitVec.getMsbD_xor]

theorem rev_shiftLeft (v : BitVec n) (m : Nat) : rev (v <<< m) = rev v >>> m := by
  apply BitVec.eq_of_getLsbD_eq
  intro k _
  rw [BitVec.getLsbD_ushiftRight, rev, rev, BitVec.getLsbD_reverse, BitVec.getLsbD_reverse, BitVec.getMsbD_shiftLeft,
    Nat.add_comm]

/-- The bit that the Reflected step tests is the one that the Forward step tests. -/
theorem getLsbD_rev_zero (v : BitVec n) : (rev v).getLsbD 0 = v.msb := by
  rw [BitVec.msb_eq_getMsbD_zero, rev, BitVec.getLsbD_reverse]

theorem stepReflected_rev (p v : BitVec n) : stepReflected (rev p) (rev v) = rev (stepForward p v) := by
  unfold stepReflected stepForward
  rw [getLsbD_rev_zero]
  cases v.msb with
  | true => simp only [if_true, rev_xor, rev_shiftLeft]
  | false => simp only [Bool.false_eq_true, if_false, rev_shiftLeft]

/-- Bit `k` of either side is bit `k` of the byte, counted from its top. -/
theorem placeByte_reflected_rev (hn : 8 ≤ n) (i : Byte) :
    placeByte .reflected (rev i) = rev (placeByte .forward i : BitVec n) := by
  apply BitVec.eq_of_getLsbD_eq
  intro k hk
  have hplace : k + (n - 8) + 8 - n = k := by omega
  rw [placeByte, placeByte, rev, rev, BitVec.getLsbD_setWidth, BitVec.getLsbD_reverse, BitVec.getLsbD_reverse,
    BitVec.getMsbD_shiftLeft, BitVec.getMsbD_setWidth, hplace, decide_eq_true hk, decide_eq_true (Nat.le_add_left ..)]

theorem genEntry_reflected_rev (hn : 8 ≤ n) (p : BitVec n) (i : Byte) :
    genEntry (rev p) .reflected (rev i) = rev (genEntry p .forward i) := by
  have hsteps : Function.Semiconj rev (stepForward p)^[8] (stepReflected (rev p))^[8] :=
    Function.Semiconj.iterate_right (fun v => (stepReflected_rev p v).symm) 8
  rw [genEntry, placeByte_reflected_rev hn]
  exact (hsteps _).symm

/-- `genEntry_reflected_rev`, solved for the Reflected entry: what is proved of the Forward branch holds of the other. -/
theorem genEntry_reflected (hn : 8 ≤ n) (p : BitVec n) (i : Byte) :
    genEntry p .reflected i = rev (genEntry (rev p) .forward (rev i)) := by
  rw [← genEntry_reflected_rev hn, rev_rev, rev_rev]

/-! ## Fixed entries and the zero polynomial (spec/40_table_generation.md R106) -/

theorem shiftLeft_one_twoPow (k : Nat) : BitVec.twoPow n k <<< 1 = BitVec.twoPow n (k + 1) := by
  rw [BitVec.twoPow, BitVec.twoPow, BitVec.shiftLeft_add]

/-- A single bit below the top moves up one place. -/
theorem stepForward_twoPow (p : BitVec n) {k : Nat} (hk : k + 1 < n) :
    stepForward p (BitVec.twoPow n k) = BitVec.twoPow n (k + 1) := by
  have hmsb : (BitVec.twoPow n k).msb = false := by rw [BitVec.msb_twoPow]; simp; omega
  simp [stepForward, hmsb, shiftLeft_one_twoPow]

/-- The top bit is shifted out, and leaves the polynomial. -/
theorem stepForward_twoPow_top (p : BitVec n) {k : Nat} (hk : k + 1 = n) : stepForward p (BitVec.twoPow n k) = p := by
  have hmsb : (BitVec.twoPow n k).msb = true := by rw [BitVec.msb_twoPow]; simp; omega
  have hout : BitVec.twoPow n (k + 1) = 0 := BitVec.shiftLeft_eq_zero (by omega)
  simp [stepForward, hmsb, shiftLeft_one_twoPow, hout]

theorem iterate_stepForward_twoPow (p : BitVec n) {k m : Nat} (h : k + m < n) :
    (stepForward p)^[m] (BitVec.twoPow n k) = BitVec.twoPow n (k + m) := by
  induction m with
  | zero => rfl
  | succ m ih => rw [Function.iterate_succ_apply', ih (by omega), stepForward_twoPow p (by omega), Nat.add_assoc]

theorem genEntry_forward_one (hn : 8 ≤ n) (p : BitVec n) : genEntry p .forward 1 = p := by
  have hplace : (placeByte .forward 1 : BitVec n) = BitVec.twoPow n (n - 8) := by
    have hone : (1 : Byte).setWidth n = 1#n := BitVec.setWidth_ofNat_one_eq_ofNat_one_of_lt (by decide)
    rw [placeByte, hone, BitVec.twoPow]
  calc genEntry p .forward 1 = stepForward p ((stepForward p)^[7] (placeByte .forward 1)) :=
        Function.iterate_succ_apply' _ 7 _
    _ = stepForward p (BitVec.twoPow n (n - 8 + 7)) := by rw [hplace, iterate_stepForward_twoPow p (by omega)]
    _ = p := stepForward_twoPow_top p (by omega)

theorem genEntry_reflected_top (hn : 8 ≤ n) (p : BitVec n) : genEntry p .reflected 0x80 = p := by
  have hbit : rev (0x80 : Byte) = 1 := by decide
  rw [genEntry_reflected hn, hbit, genEntry_forward_one hn, rev_rev]

theorem stepForward_zero_poly (v : BitVec n) : stepForward 0 v = v <<< 1 := by simp [stepForward]

theorem iterate_stepForward_zero_poly (v : BitVec n) (k : Nat) : (stepForward 0)^[k] v = v <<< k := by
  induction k with
  | zero => exact (BitVec.shiftLeft_zero v).symm
  | succ k ih => rw [Function.iterate_succ_apply', ih, stepForward_zero_poly, BitVec.shiftLeft_add]

/-- With nothing to XOR in, the eight steps shift the whole byte out. -/
theorem genEntry_zero_poly_forward (hn : 8 ≤ n) (i : Byte) : genEntry (0 : BitVec n) .forward i = 0 := by
  have hsteps := iterate_stepForward_zero_poly (placeByte .forward i : BitVec n) 8
  refine hsteps.trans ?_
  rw [placeByte, ← BitVec.shiftLeft_add]
  exact BitVec.shiftLeft_eq_zero (by omega)

theorem genEntry_zero_poly (hn : 8 ≤ n) (e : Endian) (i : Byte) : genEntry (0 : BitVec n) e i = 0 := by
  cases e with
  | forward => exact genEntry_zero_poly_forward hn i
  | reflected => rw [genEntry_reflected hn, rev_zero, genEntry_zero_poly_forward hn, rev_zero]

/-! ## A table written in ascending order -/

/-- The words of the indices 0 to 255, written one after the other over any table, make the whole table. -/
theorem eq_genTable_of_writes {p : BitVec n} {m : Endian} {tbl : Nat → Table n}
    (h : ∀ k, k < 256 → tbl (k + 1) = (tbl k).write (BitVec.ofNat 8 k) (genEntry p m (BitVec.ofNat 8 k))) :
    tbl 256 = genTable p m := by
  have written : ∀ k, k ≤ 256 → ∀ i : Byte, i.toNat < k → (tbl k).read i = genEntry p m i := by
    intro k
    induction k with
    | zero => exact fun _ i hi => absurd hi (Nat.not_lt_zero _)
    | succ k ih =>
      intro hk i hi
      have hidx : (BitVec.ofNat 8 k).toNat = k := Nat.mod_eq_of_lt (by omega)
      rw [h k (by omega)]
      exact read_write_genEntry (fun j hj => ih (by omega) j (hidx ▸ hj)) (by omega)
  exact table_ext fun i => (written 256 (Nat.le_refl _) i i.isLt).trans (read_genTable p m i).symm

/-! ## A run of the generator (spec/40_table_generation.md R104) -/

/-- The table after `k` cycles on which the sub-block drives its write port. -/
def Generator.tableAfter (held : GenIn n) (g : Generator) (t : Table n) (k : Nat) : Table n :=
  (List.range k).foldl (fun t j => t.clocked (((Generator.next held)^[j] g).out held)) t

theorem tableAfter_succ (held : GenIn n) (g : Generator) (t : Table n) (k : Nat) :
    g.tableAfter held t (k + 1) = (g.tableAfter held t k).clocked (((Generator.next held)^[k] g).out held) := by
  rw [Generator.tableAfter, List.range_succ, List.foldl_concat, Generator.tableAfter]

section Run

variable {held : GenIn n} (hheld : held.genStart = false) (c : Nat) (t : Table n)
include hheld

/-- In the `k`-th cycle of a run the generator writes at index `k`. -/
theorem run_writing {k : Nat} (hk : k < 256) :
    (Generator.next held)^[k] ⟨.writing, 0, c⟩ = ⟨.writing, BitVec.ofNat 8 k, c⟩ := by
  induction k with
  | zero => rfl
  | succ k ih =>
    have hidx : BitVec.ofNat 8 k ≠ 0xFF := fun h => by
      have : k % 256 = 255 := congrArg BitVec.toNat h
      omega
    rw [Function.iterate_succ_apply', ih (by omega), next_writing hheld rfl hidx, BitVec.ofNat_add]
    rfl

theorem run_done : (Generator.next held)^[256] ⟨.writing, 0, c⟩ = ⟨.done, 0xFF, c⟩ := by
  rw [Function.iterate_succ_apply' _ 255, run_writing hheld c (by decide)]
  exact next_last hheld rfl rfl

theorem run_over {k : Nat} (hk : 256 < k) :
    (Generator.next held)^[k] ⟨.writing, 0, c⟩ = ⟨.idle, Config.idleGenIdx c, c + 1⟩ := by
  obtain ⟨m, rfl⟩ := Nat.exists_eq_add_of_le' hk
  rw [Function.iterate_add_apply, Function.iterate_succ_apply' _ 256, run_done hheld, next_done hheld rfl]
  exact Function.iterate_fixed (next_idle hheld rfl) m

theorem tableAfter_writing {k : Nat} (hk : k < 256) :
    Generator.tableAfter held ⟨.writing, 0, c⟩ t (k + 1) =
      (Generator.tableAfter held ⟨.writing, 0, c⟩ t k).write (BitVec.ofNat 8 k)
        (genEntry held.genPoly held.genEnd (BitVec.ofNat 8 k)) := by
  rw [tableAfter_succ, run_writing hheld c hk, out_writing held rfl, clocked_write]

theorem read_tableAfter {k : Nat} (hk : k < 256) (j : Byte) :
    (Generator.tableAfter held ⟨.writing, 0, c⟩ t (k + 1)).read j =
      if j = BitVec.ofNat 8 k then genEntry held.genPoly held.genEnd j
      else (Generator.tableAfter held ⟨.writing, 0, c⟩ t k).read j := by
  rw [tableAfter_writing hheld c t hk]
  by_cases h : j = BitVec.ofNat 8 k
  · rw [if_pos h, h, read_write_same]
  · rw [if_neg h, read_write_other _ _ (Ne.symm h)]

/-- A cycle past the writes leaves the table alone. -/
theorem tableAfter_over {k : Nat} (hk : 256 ≤ k) :
    Generator.tableAfter held ⟨.writing, 0, c⟩ t (k + 1) = Generator.tableAfter held ⟨.writing, 0, c⟩ t k := by
  rw [tableAfter_succ]
  rcases Nat.eq_or_lt_of_le hk with rfl | hk
  · rw [run_done hheld, out_done held rfl, clocked_none]
  · rw [run_over hheld c hk, out_idle held rfl, clocked_none]

theorem tableAfter_eq_genTable {k : Nat} (hk : 256 ≤ k) :
    Generator.tableAfter held ⟨.writing, 0, c⟩ t k = genTable held.genPoly held.genEnd := by
  induction k, hk using Nat.le_induction with
  | base => exact eq_genTable_of_writes fun _ h => tableAfter_writing hheld c t h
  | succ k hk ih => rw [tableAfter_over hheld c t hk, ih]

end Run

/-! ## The generator inside the engine -/

/-- `gen_start` comes with a reset or with an accepted word, and either makes the engine busy. -/
theorem edge_busy_of_genStart {e : Engine w} {p : PortIn w} (h : e.genStart p = true) : (e.edge p).busy = true := by
  change (e.control p).busy = true
  cases hr : p.rst with
  | true => simp [Engine.control, hr, Engine.beginReset]
  | false =>
    obtain ⟨⟨hb, hv⟩, _⟩ : (e.busy = false ∧ p.cmdValid = true) ∧ e.wordCallsReset p.cmd = true := by
      simpa [Engine.genStart, hr] using h
    simp [Engine.control, hr, hb, hv, Engine.accept]

/-- What the engine holds at its generator's inputs during a run. -/
def Engine.heldIn (e : Engine w) : GenIn w.bits := ⟨false, e.poly, e.endian⟩

/-- The engine's generator drives what the sub-block drives with the engine's registers at its inputs: `gen_start` has no
part in it. -/
theorem genOut_eq_out (q : PortIn w) (e : Engine w) : e.genOut q = e.generator.out e.heldIn := rfl

/-- An edge of a run: the generator and the table take the sub-block's cycle, and what the run works with stays. -/
theorem advance_writing_eq_cycle {e : Engine w} (hb : e.busy = true) (hp : e.genPhase = .writing) :
    e.advance.busy = true ∧ e.advance.heldIn = e.heldIn ∧ e.advance.pending = e.pending ∧
    e.advance.generator = e.generator.next e.heldIn ∧ e.advance.table = e.table.clocked (e.generator.out e.heldIn) := by
  have hcycle : e.advance.generator = e.generator.next e.heldIn ∧
      e.advance.table = e.table.clocked (e.generator.out e.heldIn) := by
    have hin : e.genIn ⟨false, false, 0⟩ = e.heldIn := by rw [Engine.genIn, genStart_quiet, Engine.heldIn]
    exact ⟨congrArg e.generator.next hin, rfl⟩
  have hframe : e.advance.busy = true ∧ e.advance.heldIn = e.heldIn ∧ e.advance.pending = e.pending := by
    rw [Engine.advance, edge_writing hb rfl hp]
    exact ⟨hb, rfl, rfl⟩
  obtain ⟨hbusy, hheld, hpending⟩ := hframe
  exact ⟨hbusy, hheld, hpending, hcycle⟩

/-- The edge that sees `gen_done`. -/
theorem advance_done_completes {e : Engine w} (hb : e.busy = true) (hp : e.genPhase = .done) :
    e.advance.busy = false ∧ e.advance.genPhase = .idle ∧ e.advance.rsp = e.pending ∧ e.advance.table = e.table := by
  rw [Engine.advance, edge_done hb rfl hp]
  exact ⟨rfl, rfl, rfl, rfl⟩

/-- A run inside the engine is the sub-block's run with `POLY` and `END` held at its inputs; until `gen_done` the engine stays
busy and goes on owing its response. -/
theorem quietEdges_run {e : Engine w} (hb : e.busy = true) (hp : e.genPhase = .writing) (hi : e.genIdx = 0) {k : Nat}
    (hk : k ≤ 256) :
    (e.quietEdges k).busy = true ∧ (e.quietEdges k).heldIn = e.heldIn ∧ (e.quietEdges k).pending = e.pending ∧
    (e.quietEdges k).generator = (Generator.next e.heldIn)^[k] ⟨.writing, 0, e.freeCount⟩ ∧
    (e.quietEdges k).table = Generator.tableAfter e.heldIn ⟨.writing, 0, e.freeCount⟩ e.table k := by
  induction k with
  | zero => exact ⟨hb, rfl, rfl, by rw [← hp, ← hi]; rfl, rfl⟩
  | succ k ih =>
    obtain ⟨hbusy, hheld, hpending, hgen, htable⟩ := ih (by omega)
    have hwriting : (e.quietEdges k).genPhase = .writing :=
      congrArg Generator.phase (hgen.trans (run_writing rfl _ (by omega)))
    obtain ⟨hbusy', hheld', hpending', hgen', htable'⟩ := advance_writing_eq_cycle hbusy hwriting
    rw [quietEdges_succ, Function.iterate_succ_apply', tableAfter_succ, ← hgen, ← htable, ← hheld]
    exact ⟨hbusy', hheld', hpending'.trans hpending, hgen', htable'⟩

/-! ## The obligations -/

/-- Settles O2: each bit-step commutes with reading a word as a number, and so do the eight. -/
theorem genEntryForwardComputesR101 : Obligations.GenEntryForwardComputesR101 :=
  ⟨fun w p i => ⟨toNat_genEntry_forward (eight_le_bits w) p i, genEntry_zero p _,
    genEntry_forward_one (eight_le_bits w) p, genEntry_zero_poly (eight_le_bits w) _ i⟩, by decide⟩

/-- Settles O3: as O2, the right shift needing no truncation. -/
theorem genEntryReflectedComputesR102 : Obligations.GenEntryReflectedComputesR102 :=
  ⟨fun w p i => ⟨toNat_genEntry_reflected (eight_le_bits w) p i, genEntry_zero p _,
    genEntry_reflected_top (eight_le_bits w) p, genEntry_zero_poly (eight_le_bits w) _ i⟩, by decide⟩

/-- Settles O4: each bit-step is linear over XOR, and an index is the XOR of its set bits. -/
theorem genEntryIsLinearInTheIndex : Obligations.GenEntryIsLinearInTheIndex := fun w p e =>
  ⟨genEntry_zero p e, genEntry_forward_one (eight_le_bits w) p, genEntry_reflected_top (eight_le_bits w) p,
    genEntry_xor p e, genEntry_eq_foldl_setBits p e, genEntry_zero_poly (eight_le_bits w) e⟩

/-- Settles O5: the Reflected working value is at every step the reversal of the Forward one. -/
theorem reflectedTableMirrorsForwardTable : Obligations.ReflectedTableMirrorsForwardTable := by
  intro w p i
  have hentry := genEntry_reflected_rev (eight_le_bits w) p i
  exact ⟨hentry, by rw [read_genTable, read_genTable, hentry]⟩

/-- Settles O60: the run cycle by cycle, and the table its writes leave. -/
theorem generatorSubBlockRunsOnce : Obligations.GeneratorSubBlockRunsOnce := by
  intro w g start held t hstart hheld
  rw [next_start hstart]
  refine ⟨fun k hk => ?_, ?_, fun k hk => ?_, fun k hk => tableAfter_eq_genTable hheld _ t hk⟩
  · have hgen := run_writing hheld g.freeCount hk
    exact ⟨congrArg Generator.genIdx hgen, congrArg (Generator.out held) hgen, read_tableAfter hheld _ t hk⟩
  · exact congrArg (Generator.out held) (run_done hheld g.freeCount)
  · have hgen := run_over hheld g.freeCount hk
    exact ⟨congrArg Generator.phase hgen, congrArg (Generator.out held) hgen⟩

/-- Settles O57: the engine's generator goes through the sub-block's run, and the edge that sees `gen_done` completes. -/
theorem generatorWritesEveryWordInOrder : Obligations.GeneratorWritesEveryWordInOrder := by
  refine ⟨fun w e p h => ?_, fun w e q hb hp hi => ?_⟩
  · have hgen : (e.edge p).generator = ⟨.writing, 0, e.freeCount⟩ := next_start h e.generator
    exact ⟨edge_busy_of_genStart h, congrArg Generator.phase hgen, congrArg Generator.genIdx hgen⟩
  · have run := fun k hk => quietEdges_run hb hp hi (k := k) hk
    obtain ⟨hbusy, _, hpending, hgen, htable⟩ := run 256 (Nat.le_refl _)
    have hdone := hgen.trans (run_done rfl _)
    have hfull : (e.quietEdges 256).table = genTable e.poly e.endian :=
      htable.trans (tableAfter_eq_genTable rfl _ _ (Nat.le_refl _))
    have hphase : (e.quietEdges 256).genPhase = .done := by
      rw [← generator_phase, hdone]
    obtain ⟨hready, hidle, hrsp, hkept⟩ := advance_done_completes hbusy hphase
    refine ⟨fun k hk => ?_, ?_, hbusy, hfull, ?_⟩
    · obtain ⟨_, hheld, _, hgen, htable⟩ := run k (by omega)
      obtain ⟨_, _, _, _, hnext⟩ := run (k + 1) (by omega)
      have hcycle := hgen.trans (run_writing rfl _ hk)
      refine ⟨congrArg Generator.phase hcycle, congrArg Generator.genIdx hcycle, ?_, ?_⟩
      · rw [genOut_eq_out, hcycle, hheld]; rfl
      · rw [hnext, htable]; exact read_tableAfter rfl _ _ hk
    · rw [genOut_eq_out, hdone]; rfl
    · rw [quietEdges_succ 256]
      exact ⟨hready, hidle, hrsp.trans hpending, hkept.trans hfull⟩

/-- Settles O6: the table is built of the entries; the worked example's words are evaluated. -/
theorem genTableHoldsEveryEntry : Obligations.GenTableHoldsEveryEntry := by
  refine ⟨fun _ p e i => read_genTable p e i, ?_⟩
  simp only [read_genTable]
  decide

end Sys2Proof.Machine

/-! # Byte and bulk update: one byte, eight bit-steps, a whole run (spec/41_byte_update.md) -/

namespace Sys2Proof.Machine

variable {n : Nat} {w : Width}

/-! ## The byte an update takes out of the accumulator (spec/41_byte_update.md R120) -/

/-- The top byte of a word, which the Forward index is made of. -/
def topByte (v : BitVec n) : Byte := (v >>> (n - 8)).setWidth 8

theorem forwardIndex_eq_topByte_xor (acc : BitVec n) (byte : Byte) : forwardIndex acc byte = topByte acc ^^^ byte := rfl

theorem toNat_topByte (hn : 8 ≤ n) (v : BitVec n) : (topByte v).toNat = Num.shr v.toNat (n - 8) := by
  have hlt : Num.shr v.toNat (n - 8) < 2 ^ 8 := by
    refine Nat.div_lt_of_lt_mul ?_
    rw [← Nat.pow_add, Nat.sub_add_cancel hn]
    exact v.isLt
  rw [topByte, BitVec.toNat_setWidth, toNat_ushiftRight_eq_shr, Nat.mod_eq_of_lt hlt]

theorem getMsbD_topByte (hn : 8 ≤ n) (v : BitVec n) {k : Nat} (hk : k < 8) : (topByte v).getMsbD k = v.getMsbD k := by
  have hbit : n - 8 + (8 - 1 - k) = n - 1 - k := by omega
  rw [topByte, BitVec.getMsbD_eq_getLsbD, BitVec.getMsbD_eq_getLsbD, BitVec.getLsbD_setWidth, BitVec.getLsbD_ushiftRight,
    hbit, decide_eq_true hk, decide_eq_true (by omega : 8 - 1 - k < 8), decide_eq_true (by omega : k < n), Bool.true_and]

/-- The mask keeps the low byte, which the narrower type keeps anyway. -/
theorem reflectedIndex_eq_setWidth_xor (hn : 8 ≤ n) (acc : BitVec n) (byte : Byte) :
    reflectedIndex acc byte = acc.setWidth 8 ^^^ byte := by
  have hmask : (0xFF#n).setWidth 8 = BitVec.allOnes 8 := BitVec.setWidth_ofNat_of_le hn 0xFF
  rw [reflectedIndex, BitVec.setWidth_and, hmask, BitVec.and_allOnes, BitVec.setWidth_xor,
    BitVec.setWidth_setWidth_of_le _ hn, BitVec.setWidth_eq]

/-! ## The update on unsigned integers (spec/41_byte_update.md R120) -/

theorem toNat_forwardIndex (hn : 8 ≤ n) (acc : BitVec n) (byte : Byte) :
    (forwardIndex acc byte).toNat = Num.indexForward n acc.toNat byte.toNat := by
  rw [forwardIndex_eq_topByte_xor, BitVec.toNat_xor, toNat_topByte hn, Num.indexForward]

theorem toNat_reflectedIndex (hn : 8 ≤ n) (acc : BitVec n) (byte : Byte) :
    (reflectedIndex acc byte).toNat = Num.indexReflected acc.toNat byte.toNat := by
  have hmask : Num.indexReflected acc.toNat byte.toNat = (acc.toNat ^^^ byte.toNat) % 2 ^ 8 :=
    Nat.and_two_pow_sub_one_eq_mod _ 8
  rw [reflectedIndex_eq_setWidth_xor hn, BitVec.toNat_xor, BitVec.toNat_setWidth, hmask, Nat.xor_mod_two_pow,
    Nat.mod_eq_of_lt byte.isLt]

theorem toNat_addByte_forward (hn : 8 ≤ n) (acc : BitVec n) (tbl : Table n) (byte : Byte) :
    (addByte acc tbl byte .forward).toNat = Num.shl n acc.toNat 8 ^^^
      (tbl.read (BitVec.ofNat 8 (Num.indexForward n acc.toNat byte.toNat))).toNat := by
  rw [← toNat_forwardIndex hn, BitVec.ofNat_toNat, BitVec.setWidth_eq, ← toNat_shiftLeft_eq_shl, ← BitVec.toNat_xor]
  rfl

theorem toNat_addByte_reflected (hn : 8 ≤ n) (acc : BitVec n) (tbl : Table n) (byte : Byte) :
    (addByte acc tbl byte .reflected).toNat = Num.shr acc.toNat 8 ^^^
      (tbl.read (BitVec.ofNat 8 (Num.indexReflected acc.toNat byte.toNat))).toNat := by
  rw [← toNat_reflectedIndex hn, BitVec.ofNat_toNat, BitVec.setWidth_eq, ← toNat_ushiftRight_eq_shr, ← BitVec.toNat_xor]
  rfl

/-! ## Width 8 (spec/41_byte_update.md R122) -/

theorem tableIndex_width8 (e : Endian) (acc byte : Byte) : tableIndex e acc byte = acc ^^^ byte := by
  cases e with
  | forward => exact congrArg (· ^^^ byte) ((BitVec.setWidth_eq _).trans (BitVec.ushiftRight_zero acc))
  | reflected =>
    refine (reflectedIndex_eq_setWidth_xor (Nat.le_refl 8) acc byte).trans ?_
    rw [BitVec.setWidth_eq]

theorem shiftByte_width8 (e : Endian) (acc : BitVec 8) : shiftByte e acc = 0 := by
  cases e with
  | forward => exact BitVec.shiftLeft_eq_zero (Nat.le_refl 8)
  | reflected => exact BitVec.ushiftRight_eq_zero (Nat.le_refl 8)

theorem addByte_width8 (acc : BitVec 8) (tbl : Table 8) (byte : Byte) (e : Endian) :
    addByte acc tbl byte e = tbl.read (acc ^^^ byte) := by
  rw [addByte, shiftByte_width8, tableIndex_width8]
  exact BitVec.zero_xor

/-! ## The two modes are mirror images (spec/41_byte_update.md R127) -/

theorem setWidth_rev_eq_rev_topByte (hn : 8 ≤ n) (v : BitVec n) : (rev v).setWidth 8 = rev (topByte v) := by
  apply BitVec.eq_of_getLsbD_eq
  intro k hk
  rw [BitVec.getLsbD_setWidth, rev, rev, BitVec.getLsbD_reverse, BitVec.getLsbD_reverse, getMsbD_topByte hn v hk,
    decide_eq_true hk, Bool.true_and]

theorem reflectedIndex_rev (hn : 8 ≤ n) (acc : BitVec n) (byte : Byte) :
    reflectedIndex (rev acc) (rev byte) = rev (forwardIndex acc byte) := by
  rw [reflectedIndex_eq_setWidth_xor hn, setWidth_rev_eq_rev_topByte hn, forwardIndex_eq_topByte_xor, rev_xor]

theorem addByte_reflected_rev (hn : 8 ≤ n) (p acc : BitVec n) (byte : Byte) :
    addByte (rev acc) (genTable (rev p) .reflected) (rev byte) .reflected =
      rev (addByte acc (genTable p .forward) byte .forward) := by
  have hshift : shiftByte .reflected (rev acc) = rev (shiftByte .forward acc) := (rev_shiftLeft acc 8).symm
  have hindex : tableIndex .reflected (rev acc) (rev byte) = rev (tableIndex .forward acc byte) :=
    reflectedIndex_rev hn acc byte
  rw [addByte, addByte, hshift, hindex, read_genTable, read_genTable, genEntry_reflected_rev hn, rev_xor]

theorem feed_reflected_rev (hn : 8 ≤ n) (p seed : BitVec n) (bytes : List Byte) :
    feed (rev seed) (genTable (rev p) .reflected) .reflected (bytes.map rev) =
      rev (feed seed (genTable p .forward) .forward bytes) := by
  induction bytes generalizing seed with
  | nil => rfl
  | cons byte rest ih =>
    have hbyte := addByte_reflected_rev hn p seed byte
    exact (congrArg (feed · _ _ _) hbyte).trans (ih _)

/-! ## Eight bit-steps (spec/41_byte_update.md R126) -/

/-- Bits that are 0 are shifted out without an XOR. -/
theorem iterate_stepForward_of_clear_top (p : BitVec n) {v : BitVec n} {k : Nat}
    (h : ∀ j < k, v.getMsbD j = false) : (stepForward p)^[k] v = v <<< k := by
  induction k with
  | zero => exact (BitVec.shiftLeft_zero v).symm
  | succ k ih =>
    have hmsb : (v <<< k).msb = false := (BitVec.msb_shiftLeft ..).trans (h k (Nat.lt_succ_self k))
    rw [Function.iterate_succ_apply', ih fun j hj => h j (by omega), BitVec.shiftLeft_add]
    simp [stepForward, hmsb]

theorem getMsbD_placeByte_forward (hn : 8 ≤ n) (i : Byte) {k : Nat} (hk : k < 8) :
    (placeByte .forward i : BitVec n).getMsbD k = i.getMsbD k := by
  have hplace : k + (n - 8) + 8 - n = k := by omega
  rw [placeByte, BitVec.getMsbD_shiftLeft, BitVec.getMsbD_setWidth, hplace, decide_eq_true (Nat.le_add_left ..),
    Bool.true_and]

theorem placeByte_forward_shiftLeft (hn : 8 ≤ n) (i : Byte) : (placeByte .forward i : BitVec n) <<< 8 = 0 := by
  rw [placeByte, ← BitVec.shiftLeft_add]
  exact BitVec.shiftLeft_eq_zero (by omega)

/-- Without its top byte, a word is only shifted by eight bit-steps. -/
theorem iterate_stepForward_xor_topByte (hn : 8 ≤ n) (p v : BitVec n) :
    (stepForward p)^[8] (v ^^^ placeByte .forward (topByte v)) = v <<< 8 := by
  have hclear : ∀ j < 8, (v ^^^ placeByte .forward (topByte v)).getMsbD j = false := fun j hj => by
    rw [BitVec.getMsbD_xor, getMsbD_placeByte_forward hn _ hj, getMsbD_topByte hn v hj, Bool.xor_self]
  rw [iterate_stepForward_of_clear_top p hclear, BitVec.shiftLeft_xor_distrib, placeByte_forward_shiftLeft hn]
  exact BitVec.xor_zero

/-- The steps are linear: the word without its top byte is shifted, and the top byte with the input byte is a table entry. -/
theorem addByte_forward_eq_steps (hn : 8 ≤ n) (p acc : BitVec n) (byte : Byte) :
    addByte acc (genTable p .forward) byte .forward = (stepForward p)^[8] (acc ^^^ placeByte .forward byte) := by
  have hsplit : acc ^^^ placeByte .forward byte =
      (acc ^^^ placeByte .forward (topByte acc)) ^^^ placeByte .forward (forwardIndex acc byte) := by
    rw [forwardIndex_eq_topByte_xor, placeByte_xor, BitVec.xor_assoc, ← BitVec.xor_assoc (placeByte .forward (topByte acc)),
      BitVec.xor_self, BitVec.zero_xor]
  calc addByte acc (genTable p .forward) byte .forward
      = acc <<< 8 ^^^ genEntry p .forward (forwardIndex acc byte) := by rw [addByte, read_genTable]; rfl
    _ = (stepForward p)^[8] (acc ^^^ placeByte .forward (topByte acc)) ^^^
          (stepForward p)^[8] (placeByte .forward (forwardIndex acc byte)) := by
        rw [iterate_stepForward_xor_topByte hn]; rfl
    _ = (stepForward p)^[8] (acc ^^^ placeByte .forward byte) := by
        rw [hsplit]; exact (iterate_bitStep_xor p .forward 8 _ _).symm

/-- The Forward law, mirrored. -/
theorem addByte_reflected_eq_steps (hn : 8 ≤ n) (p acc : BitVec n) (byte : Byte) :
    addByte acc (genTable p .reflected) byte .reflected = (stepReflected p)^[8] (acc ^^^ placeByte .reflected byte) := by
  have hsteps : Function.Semiconj rev (stepForward (rev p))^[8] (stepReflected (rev (rev p)))^[8] :=
    Function.Semiconj.iterate_right (fun v => (stepReflected_rev (rev p) v).symm) 8
  have hmirror := addByte_reflected_rev hn (rev p) (rev acc) (rev byte)
  rw [addByte_forward_eq_steps hn, hsteps, rev_xor, ← placeByte_reflected_rev hn] at hmirror
  simpa only [rev_rev] using hmirror

/-! ## A sequence of bytes (spec/41_byte_update.md R124, R125) -/

theorem foldl_effect_addBytesOps (bytes : List Byte) (e : Engine w) :
    (addBytesOps bytes).foldl (fun e i => e.effect i) e =
      { e with
        acc := feed e.acc e.table e.endian bytes
        count := e.count + BitVec.ofNat 64 bytes.length
        rsp := if bytes = [] then e.rsp else some .ok } := by
  induction bytes generalizing e with
  | nil => simp [addBytesOps, feed]
  | cons byte rest ih =>
    have hcount : e.count + 1 + BitVec.ofNat 64 rest.length = e.count + BitVec.ofNat 64 (rest.length + 1) := by
      rw [BitVec.add_assoc, BitVec.add_comm 1, BitVec.ofNat_add]; rfl
    refine (ih (e.addByte byte)).trans ?_
    simpa [feed] using hcount

theorem toNat_count_add (c : BitVec Config.countBits) (k : Nat) :
    (c + BitVec.ofNat 64 k).toNat = (c.toNat + k) % 2 ^ 64 := by
  rw [BitVec.toNat_add, BitVec.toNat_ofNat, Nat.add_mod_mod]

theorem execSeq_append {xs ys : List Instr} {s t : State} (h : execSeq xs s = .next t) :
    execSeq (xs ++ ys) s = execSeq ys t := by
  rw [execSeq_eq] at h
  cases h
  rw [execSeq_eq, execSeq_eq, List.foldl_append]
  rfl

/-! ## The obligations -/

/-- Settles O9: the Forward law by linearity of the bit-step, the Reflected law as its mirror image. -/
theorem tableDrivenUpdateEqualsEightBitSteps : Obligations.TableDrivenUpdateEqualsEightBitSteps := fun w p acc byte =>
  ⟨addByte_forward_eq_steps (eight_le_bits w) p acc byte, addByte_reflected_eq_steps (eight_le_bits w) p acc byte⟩

/-- Settles O10, by induction on the bytes: one update of the reversed data is the reversed update; the checksums of the
rule's example are evaluated. -/
theorem reflectedRunMirrorsForwardRun : Obligations.ReflectedRunMirrorsForwardRun :=
  ⟨fun w => feed_reflected_rev (eight_le_bits w), by decide +kernel⟩

/-- Settles O7: shifts and indices commute with reading a word as a number; the worked examples are evaluated. -/
theorem addByteComputesR120 : Obligations.AddByteComputesR120 := by
  refine ⟨fun w acc tbl byte => ?_, by decide +kernel⟩
  have hn := eight_le_bits w
  refine ⟨?_, ?_, toNat_addByte_forward hn acc tbl byte, toNat_addByte_reflected hn acc tbl byte⟩
  · rw [← toNat_forwardIndex hn]; exact (forwardIndex acc byte).isLt
  · rw [← toNat_reflectedIndex hn]; exact (reflectedIndex acc byte).isLt

/-- Settles O8: a shift by the full width gives 0; with the polynomial 0x07 the tables differ at index 1. -/
theorem addByteAtWidth8IsOneTableRead : Obligations.AddByteAtWidth8IsOneTableRead := by
  refine ⟨fun acc tbl byte e => ⟨addByte_width8 acc tbl byte e, shiftByte_width8 e acc, tableIndex_width8 e acc byte⟩,
    0x07#8, fun htables => ?_⟩
  have hentries : genEntry 0x07#8 .forward 1 = genEntry 0x07#8 .reflected 1 := by
    rw [← read_genTable, ← read_genTable, htables]
  exact absurd hentries (by decide)

/-- Settles O34: the run of the commands is the fold of their effects, and a fold splits anywhere. -/
theorem bulkUpdateEqualsIncrementalUpdate : Obligations.BulkUpdateEqualsIncrementalUpdate := by
  intro s xs ys
  refine ⟨⟨_, execSeq_eq (addBytesOps xs) s, ?_⟩, fun t h => ?_⟩
  · rw [foldl_effect_addBytesOps]
    exact ⟨rfl, toNat_count_add s.engine.count xs.length, rfl⟩
  · rw [addBytesOps, List.map_append]
    exact execSeq_append h

/-- Settles O22: the effect of the command, its addition read as a number. -/
theorem addByteUpdatesAccAndCount : Obligations.AddByteUpdatesAccAndCount := fun s byte =>
  ⟨s.engine.count + 1, exec_eq (.addByte byte) s, BitVec.toNat_add s.engine.count 1⟩

end Sys2Proof.Machine

/-! # The configuration commands: the setters, `RESET` and `FLIP` (spec/42_configuration.md) -/

namespace Sys2Proof.Machine

variable {w : Width}

/-! ## From an engine's effect to the machine's outcome -/

theorem exec_of_effect {i : Instr} {s : State} {e : Engine s.width} (h : s.engine.effect i = e) :
    exec i s = .next (s.withEngine e) := h ▸ exec_eq i s

theorem execSeq_of_effects {commands : List Instr} {s : State} {e : Engine s.width}
    (h : commands.foldl (fun e i => e.effect i) s.engine = e) :
    execSeq commands s = .next (s.withEngine e) := h ▸ execSeq_eq commands s

/-! ## Commands that call `Reset()` (spec/42_configuration.md R140, R148) -/

/-- Whatever a command that calls `Reset()` stores, it leaves the engine rewound, with the table of its configuration. -/
theorem effect_of_callsReset {i : Instr} {e : Engine w} (h : e.callsReset i = true) :
    (e.effect i).acc = (e.effect i).seed ∧ (e.effect i).count = 0 ∧ (e.effect i).TableConsistent ∧
      (e.effect i).rsp = some .ok := by
  rcases effect_cases i e with ⟨_, hno⟩ | ⟨byte, rfl, _⟩ | ⟨p, m, s, he, _⟩ | ⟨_, _, hno⟩
  · simp [h] at hno
  · simp [Engine.callsReset] at h
  · rw [he]; exact ⟨rfl, rfl, rfl, rfl⟩
  · simp [h] at hno

/-- `Reset()` gives a consistent engine the table it has. -/
theorem initRaw_of_tableConsistent {e : Engine w} (h : e.TableConsistent) (seed : Word w) :
    e.initRaw e.poly e.endian seed = { e with seed := seed, acc := seed, count := 0, rsp := some .ok } :=
  congrArg (fun t => { e with seed := seed, table := t, acc := seed, count := 0, rsp := some .ok }) h.symm

/-- A consistent engine that has consumed no byte answers `RESET` and stays as it is (R141). -/
theorem cmdReset_of_rewound {e : Engine w} (h : e.TableConsistent) (hacc : e.acc = e.seed) (hcount : e.count = 0) :
    e.cmdReset = e.respond .ok :=
  (initRaw_of_tableConsistent h e.seed).trans
    (congrArg₂ (fun acc count => { e with acc := acc, count := count, rsp := some .ok }) hacc.symm hcount.symm)

theorem cmdReset_cmdReset (e : Engine w) : e.cmdReset.cmdReset = e.cmdReset := rfl

/-! ## `FLIP` (spec/42_configuration.md R145, R149) -/

theorem eq_otherMode {m m' : Endian} (h : m' ≠ m) : m' = otherMode m := by
  cases m <;> cases m' <;> simp_all [otherMode]

theorem otherMode_otherMode (m : Endian) : otherMode (otherMode m) = m := by cases m <;> rfl

theorem eq_rev_of_getLsbD {n : Nat} {u v : BitVec n} (h : ∀ k, k < n → u.getLsbD k = v.getLsbD (n - 1 - k)) : u = rev v :=
  BitVec.eq_of_getLsbD_eq fun k hk => (h k hk).trans (getLsbD_rev v hk).symm

/-- Two reversals and two toggles cancel: what is left of two `FLIP`s is the `Reset()`. -/
theorem flip_flip (e : Engine w) : e.flip.flip = e.cmdReset := by
  rw [flip_eq_initRaw, flip_poly, flip_endian, rev_rev, otherMode_otherMode]
  rfl

/-! ## The three setters in a row (spec/42_configuration.md R151) -/

/-- On an engine just constructed a setter is the construction with its value: where it does not call `Reset()`, nothing has
moved since the construction did. -/
theorem setEnd_initRaw (e : Engine w) (p : Word w) (m m' : Endian) (s : Word w) :
    (e.initRaw p m s).setEnd m' = e.initRaw p m' s := by
  by_cases h : m' = m
  · subst h; exact setEnd_same (e.initRaw p m' s)
  · exact setEnd_other h

theorem setSeed_initRaw (e : Engine w) (p : Word w) (m : Endian) (s s' : Word w) :
    (e.initRaw p m s).setSeed s' = e.initRaw p m s' := by
  by_cases h : s' = s
  · subst h; exact setSeed_same (e.initRaw p m s')
  · exact setSeed_other h

/-- A setter reads no response. -/
theorem respond_setEnd (e : Engine w) (m : Endian) : (e.respond .ok).setEnd m = e.setEnd m := by
  by_cases h : m = e.endian
  · subst h; exact (setEnd_same (e.respond .ok)).trans (setEnd_same e).symm
  · exact (setEnd_other (e := e.respond .ok) h).trans (setEnd_other h).symm

theorem respond_setSeed (e : Engine w) (s : Word w) : (e.respond .ok).setSeed s = e.setSeed s := by
  by_cases h : s = e.seed
  · subst h; exact (setSeed_same (e.respond .ok)).trans (setSeed_same e).symm
  · exact (setSeed_other (e := e.respond .ok) h).trans (setSeed_other h).symm

/-- From the first setter that finds another value on, the sequence is a construction; with none it is only answered. -/
theorem setters_eq (e : Engine w) (p : Word w) (m : Endian) (s : Word w) :
    ((e.setPoly p).setEnd m).setSeed s =
      if p = e.poly ∧ m = e.endian ∧ s = e.seed then e.respond .ok else e.initRaw p m s := by
  by_cases hp : p = e.poly
  · subst hp
    rw [setPoly_same, respond_setEnd]
    by_cases hm : m = e.endian
    · subst hm
      rw [setEnd_same, respond_setSeed]
      by_cases hs : s = e.seed
      · subst hs; rw [setSeed_same, if_pos ⟨rfl, rfl, rfl⟩]
      · rw [setSeed_other hs, if_neg (by simp [hs])]
    · rw [setEnd_other hm, setSeed_initRaw, if_neg (by simp [hm])]
  · rw [setPoly_other hp, setEnd_initRaw, setSeed_initRaw, if_neg (by simp [hp])]

/-! ## The obligations -/

/-- Settles O28: each of these commands calls `Reset()`. -/
theorem changingTheConfigurationRewinds : Obligations.ChangingTheConfigurationRewinds := by
  intro s i h
  have hreset : s.engine.callsReset i = true := by
    rcases h with ⟨v, rfl, hv⟩ | ⟨mode, rfl, hm⟩ | ⟨v, rfl, hv⟩ | rfl | rfl | ⟨p, m, sd, rfl⟩ | ⟨n, m, sd, rfl, hn⟩
    · exact decide_eq_true hv
    · exact decide_eq_true hm
    · exact decide_eq_true hv
    · rfl
    · rfl
    · rfl
    · exact decide_eq_true hn
  exact ⟨_, exec_eq i s, effect_of_callsReset hreset⟩

/-- Settles O29: the sequence answers some state, and a second `Reset()` of it writes what the first wrote. -/
theorem resetIsIdempotentAfterAnyCommands : Obligations.ResetIsIdempotentAfterAnyCommands := by
  intro s commands
  have hrun := execSeq_eq commands s
  generalize commands.foldl (fun e i => e.effect i) s.engine = e at hrun
  refine ⟨e.cmdReset, ?_, rfl, rfl, ?_⟩
  · exact (execSeq_append hrun).trans (execSeq_of_effects rfl)
  · exact (execSeq_append hrun).trans (execSeq_of_effects (cmdReset_cmdReset e))

/-- Settles O31: the sequence is one construction, or nothing but its answers. -/
theorem threeSettersSetTheConfiguration : Obligations.ThreeSettersSetTheConfiguration := by
  intro s p mode seed
  refine ⟨_, execSeq_of_effects (setters_eq s.engine (operandValue s.width p) mode (operandValue s.width seed)), ?_⟩
  split
  next hheld =>
    obtain ⟨hp, hm, hs⟩ := hheld
    refine ⟨hp.symm, hm.symm, hs.symm, fun hother => ?_, fun _ => rfl⟩
    rcases hother with h | h | h
    · exact absurd hp h
    · exact absurd hm h
    · exact absurd hs h
  next hother => exact ⟨rfl, rfl, rfl, fun _ => ⟨rfl, rfl⟩, fun hheld => absurd hheld hother⟩

/-- Settles O17: `Reset()` with nothing stored, and what it leaves of a rewound engine. -/
theorem resetCommandRewinds : Obligations.ResetCommandRewinds :=
  ⟨fun s => exec_of_effect (cmdReset_eq_initRaw s.engine),
    fun _ htable hacc hcount => exec_of_effect (cmdReset_of_rewound htable hacc hcount)⟩

/-- Settles O27: the test of each setter fails. -/
theorem settingTheSameValueIsANoOp : Obligations.SettingTheSameValueIsANoOp := by
  intro s i h
  rcases h with ⟨v, rfl, hv⟩ | ⟨mode, rfl, rfl⟩ | ⟨v, rfl, hv⟩
  · exact exec_of_effect ((congrArg s.engine.setPoly hv).trans (setPoly_same s.engine))
  · exact exec_of_effect (setEnd_same s.engine)
  · exact exec_of_effect ((congrArg s.engine.setSeed hv).trans (setSeed_same s.engine))

/-- Settles O18: a no-op or a construction that keeps `END` and `SEED`. -/
theorem setPolyStoresAndResets : Obligations.SetPolyStoresAndResets := by
  intro s v
  split
  next hheld => exact settingTheSameValueIsANoOp s _ (.inl ⟨v, rfl, hheld⟩)
  next hother => exact exec_of_effect (setPoly_other hother)

/-- Settles O19: a no-op or a construction that keeps `POLY` and `SEED`. -/
theorem setEndStoresAndResets : Obligations.SetEndStoresAndResets := by
  intro s mode
  split
  next hheld => exact settingTheSameValueIsANoOp s _ (.inr (.inl ⟨mode, rfl, hheld⟩))
  next hother => exact exec_of_effect (setEnd_other hother)

/-- Settles O20: a no-op or a construction that keeps `POLY` and `END`, and so the table where it was theirs. -/
theorem setSeedStoresAndResets : Obligations.SetSeedStoresAndResets := by
  refine fun s v => ⟨?_, fun htable hother => ?_⟩
  · split
    next hheld => exact settingTheSameValueIsANoOp s _ (.inr (.inr ⟨v, rfl, hheld⟩))
    next hother => exact exec_of_effect (setSeed_other hother)
  · exact exec_of_effect ((setSeed_other hother).trans (initRaw_of_tableConsistent htable _))

/-- Settles O21: the bits say that the polynomial is the reversed one, and there are only two modes. -/
theorem flipReversesAndToggles : Obligations.FlipReversesAndToggles := by
  refine ⟨fun s poly mode mode' hbits hmode hother => ?_, fun s => ⟨_, exec_eq .flip s⟩⟩
  subst hmode
  rw [eq_rev_of_getLsbD hbits, eq_otherMode hother]
  exact exec_of_effect (flip_eq_initRaw s.engine)

/-- Settles O30: two `FLIP`s are one `RESET`. -/
theorem twoFlipsRestoreThePolynomial : Obligations.TwoFlipsRestoreThePolynomial := fun s =>
  ⟨s.engine.cmdReset, execSeq_of_effects (flip_flip s.engine), rfl, rfl, rfl, rfl, rfl, fun htable => htable.symm⟩

end Sys2Proof.Machine

/-! # Construction and the catalog: `INIT_RAW`, `INIT_DEF` and `INIT_NAME` (spec/43_construction_catalog.md) -/

namespace Sys2Proof.Machine

variable {w : Width}

/-! ## `INIT_DEF` (spec/43_construction_catalog.md R162) -/

/-- A `W`-bit value carried in an operand field is the value it was: no width exceeds the field's 32 bits. -/
theorem operandValue_setWidth (v : Word w) : operandValue w (v.setWidth 32) = v := by
  have hbits : w.bits ≤ 32 := by cases w <;> decide
  rw [operandValue, BitVec.setWidth_setWidth_of_le _ hbits, BitVec.setWidth_eq]

theorem operandValue_zero (w : Width) : operandValue w 0 = defaultSeed w := BitVec.setWidth_zero w.bits 32

/-- `INIT_DEF` is the construction from `DEFAULT_POLY(W)` as it stands, whatever the mode. -/
theorem effect_initDefOp (mode : Endian) (seed : Operand) (e : Engine w) :
    e.effect (initDefOp w mode seed) = e.initRaw (defaultPoly w) mode (operandValue w seed) :=
  congrArg (e.initRaw · mode (operandValue w seed)) (operandValue_setWidth (defaultPoly w))

/-! ## `INIT_NAME` (spec/43_construction_catalog.md R161, R165) -/

/-- The engine reads from the ROM the constant of the entry at the index. -/
theorem catalogConst_of_getElem? {index : Nat} {entry : String × Word w} (h : (catalog w)[index]? = some entry) :
    catalogConst w index = some entry.2 := by
  rw [catalogConst, h, Option.map_some]

/-! ## The obligations -/

/-- Settles O33: with the default operands the construction loads what hardware reset loads. -/
theorem initDefIsTheResetConfiguration : Obligations.InitDefIsTheResetConfiguration := by
  refine ⟨fun s => exec_of_effect ?_, fun s mode seed =>
    ⟨_, exec_of_effect (effect_initDefOp mode seed s.engine), rfl, rfl, rfl⟩⟩
  rw [effect_initDefOp, operandValue_zero]
  rfl

/-- Settles O23: the command is the construction from its operands. -/
theorem initRawConstructs : Obligations.InitRawConstructs := fun _ _ _ _ => exec_of_effect rfl

/-- Settles O24: inside the catalog a construction from the entry's constant, held in Reflected form; outside it the error. -/
theorem initNameConstructsOrRaises : Obligations.InitNameConstructsOrRaises := by
  refine ⟨fun s name mode seed entry hentry => ?_, fun s name mode seed houtside => ?_⟩
  · exact exec_of_effect (initName_valid (catalogConst_of_getElem? hentry) mode (operandValue s.width seed) s.engine)
  · exact exec_of_effect (initName_invalid houtside mode (operandValue s.width seed) s.engine)

/-- Settles O26: each catalog is read out and its constants reversed, one closed evaluation per width. -/
theorem catalogHoldsTheSourceConstants : Obligations.CatalogHoldsTheSourceConstants :=
  ⟨by decide +kernel, by decide +kernel, by decide +kernel, rfl, rfl, rfl⟩

end Sys2Proof.Machine

/-! # The accessors: the rendering of the accumulator (spec/44_accessors.md R186) -/

namespace Sys2Proof.Machine

/-! ## One hexadecimal digit -/

theorem hexDigit_mem_alphabet {d : Nat} (hd : d < 16) : hexDigit d ∈ "0123456789abcdef".toList :=
  (by decide +kernel : ∀ d < 16, hexDigit d ∈ "0123456789abcdef".toList) d hd

theorem digitValue_hexDigit {d : Nat} (hd : d < 16) : digitValue (hexDigit d) = some d :=
  (by decide +kernel : ∀ d < 16, digitValue (hexDigit d) = some d) d hd

/-! ## Reading digits -/

/-- Digits are read from the most significant end: what stands on the left is read first, and its value is carried on. -/
theorem digitsValue_append (base value : Nat) (left right : List Char) :
    digitsValue base value (left ++ right) = (digitsValue base value left).bind (digitsValue base · right) := by
  induction left generalizing value with
  | nil => rfl
  | cons c left ih =>
    rw [List.cons_append, digitsValue, digitsValue]
    split
    · split
      · exact ih _
      · rfl
    · rfl

theorem digitsValue_hexDigit (value : Nat) {d : Nat} (hd : d < 16) :
    digitsValue 16 value [hexDigit d] = some (value * 16 + d) := by
  simp [digitsValue, digitValue_hexDigit hd, hd]

/-! ## The digits of a value -/

@[simp] theorem length_hexDigits (n v : Nat) : (hexDigits n v).length = n := by
  induction n generalizing v with
  | zero => rfl
  | succ n ih => simp [hexDigits, ih]

theorem mem_alphabet_of_mem_hexDigits {n v : Nat} {c : Char} (hc : c ∈ hexDigits n v) :
    c ∈ "0123456789abcdef".toList := by
  induction n generalizing v with
  | zero => exact absurd hc List.not_mem_nil
  | succ n ih =>
    obtain hc | hc := List.mem_append.mp hc
    · exact ih hc
    · exact List.mem_singleton.mp hc ▸ hexDigit_mem_alphabet (Nat.mod_lt v (by decide))

/-- A value that `n` digits hold is read back: its last digit is the remainder by 16, the digits before it the quotient. -/
theorem digitsValue_hexDigits {n v : Nat} (hv : v < 16 ^ n) : digitsValue 16 0 (hexDigits n v) = some v := by
  induction n generalizing v with
  | zero => rw [Nat.lt_one_iff.mp hv]; rfl
  | succ n ih =>
    have hquot : v / 16 < 16 ^ n := Nat.div_lt_of_lt_mul (by rwa [Nat.pow_succ'] at hv)
    rw [hexDigits, digitsValue_append, ih hquot, Option.bind_some,
      digitsValue_hexDigit _ (Nat.mod_lt v (by decide)), Nat.div_add_mod']

/-! ## The rendering -/

theorem toList_render (w : Width) (v : Word w) : (render w v).toList = hexDigits (w.bits / 4) v.toNat :=
  String.toList_ofList

/-- Every width is a whole number of hexadecimal digits. -/
theorem two_pow_bits_eq_sixteen_pow (w : Width) : 2 ^ w.bits = 16 ^ (w.bits / 4) := by cases w <;> rfl

/-- Settles O59: the digits are `W/4`, each from the alphabet, and a `W`-bit value fits in them, so reading returns it. -/
theorem renderingIsPaddedLowercaseHex : Obligations.RenderingIsPaddedLowercaseHex := by
  refine ⟨fun w v => ?_, by decide +kernel⟩
  rw [toList_render]
  have hfits : v.toNat < 16 ^ (w.bits / 4) := two_pow_bits_eq_sixteen_pow w ▸ v.isLt
  exact ⟨length_hexDigits _ _, fun _ => mem_alphabet_of_mem_hexDigits, digitsValue_hexDigits hfits⟩

end Sys2Proof.Machine

/-! # Exceptions: the responses, the sticky bits, and the totality of a step (spec/60_exceptions.md) -/

namespace Sys2Proof.Machine

variable {w : Width}

/-! ## The response of a command (spec/60_exceptions.md R190, R191) -/

theorem raisesInvalid_iff {i : Instr} :
    raisesInvalid w i = true ↔ ∃ name mode seed, i = .initName name mode seed ∧ nNames w ≤ name.toNat := by
  cases i with
  | initName n m s =>
    exact ⟨fun h => ⟨n, m, s, rfl, of_decide_eq_true h⟩, by rintro ⟨_, _, _, ⟨⟩, h⟩; exact decide_eq_true h⟩
  | _ => simp [raisesInvalid]

/-- A decoded command answers `INVALID_CONFIGURATION` when it raises that error, and `OK` otherwise. -/
theorem effect_rsp (i : Instr) (e : Engine w) :
    (e.effect i).rsp = some (if raisesInvalid w i then .invalidConfiguration else .ok) := by
  cases hv : raisesInvalid w i with
  | true => simp [effect_of_raisesInvalid hv, ErrorKind.response]
  | false =>
    rcases effect_cases i e with ⟨h, _⟩ | ⟨byte, _, h⟩ | ⟨p, m, s, h, _⟩ | ⟨hv', _⟩
    · simp [h]
    · simp [h]
    · simp [h]
    · simp [hv] at hv'

theorem effect_rsp_invalid_iff (i : Instr) (e : Engine w) :
    (e.effect i).rsp = some .invalidConfiguration ↔ raisesInvalid w i = true := by
  rw [effect_rsp]
  cases raisesInvalid w i <;> decide

theorem effect_rsp_ne_illegal (i : Instr) (e : Engine w) : (e.effect i).rsp ≠ some .illegalCommand := by
  rw [effect_rsp]
  cases raisesInvalid w i <;> decide

/-! ## The sticky bits (spec/60_exceptions.md R197) -/

/-- With other sticky bits a command gives the same engine but for the sticky bits. -/
theorem exists_effect_of_stickyBits (i : Instr) (e : Engine w) (x y : Bool) :
    ∃ x' y' : Bool, Engine.effect i { e with errInvCfg := x, errIllCmd := y } =
      { e.effect i with errInvCfg := x', errIllCmd := y' } := by
  have hf : Engine.SameConfig { e with errInvCfg := x, errIllCmd := y } e := ⟨rfl, rfl, rfl⟩
  have he : e.SameConfig e := ⟨rfl, rfl, rfl⟩
  rcases effect_cases_of_config i e with h | ⟨byte, rfl⟩ | ⟨p, m, s, h⟩ | h
  · rw [h _ hf, h _ he]; exact ⟨x, y, rfl⟩
  · exact ⟨x, y, rfl⟩
  · rw [h _ hf, h _ he]; exact ⟨x, y, rfl⟩
  · rw [h, h]; exact ⟨true, y, rfl⟩

theorem effect_of_stickyBits (i : Instr) (e : Engine w) (x y : Bool) :
    Engine.effect i { e with errInvCfg := x, errIllCmd := y } =
      { e.effect i with errInvCfg := x || raisesInvalid w i, errIllCmd := y } := by
  obtain ⟨x', y', h⟩ := exists_effect_of_stickyBits i e x y
  obtain rfl : (x || raisesInvalid w i) = x' := (effect_errInvCfg i _).symm.trans (congrArg Engine.errInvCfg h)
  obtain rfl : y = y' := (effect_errIllCmd i _).symm.trans (congrArg Engine.errIllCmd h)
  exact h

/-! ## The obligations -/

/-- Settles O25: a command's response is decided by whether it raises the error, and raising it sets the bit and the code. -/
theorem invalidConfigurationOnlyFromInitName : Obligations.InvalidConfigurationOnlyFromInitName := by
  intro s i
  refine ⟨_, exec_eq i s, (effect_rsp_invalid_iff i _).trans raisesInvalid_iff, fun h => ?_, effect_rsp_ne_illegal i _⟩
  exact effect_of_raisesInvalid ((effect_rsp_invalid_iff i _).1 h) s.engine

/-- Settles O38: what a command does is decided by the configuration, and none of its effects reads a sticky bit. -/
theorem stickyBitsFeedIntoNothing : Obligations.StickyBitsFeedIntoNothing := by
  intro s i x y
  refine ⟨_, exec_eq i s, ?_⟩
  rw [← effect_of_stickyBits]
  exact exec_eq i (s.withEngine { s.engine with errInvCfg := x, errIllCmd := y })

/-- Settles O42: a word that decodes answers as its command does, any other raises `IllegalCommand`. -/
theorem everyAcceptedWordAnswersOneResponse : Obligations.EveryAcceptedWordAnswersOneResponse := by
  refine ⟨fun s cmd later hbusy hinput => ⟨_, step_command hbusy hinput, ?_, fun i hd => ?_⟩, rfl, rfl, rfl⟩
  · rintro ⟨reason, hd⟩
    exact congrArg Engine.rsp (execWord_error hd s.engine)
  · rw [execWord_ok hd, effect_rsp]

/-- Settles O41: a busy or idle engine uses up no presentation, any other step the first one. -/
theorem everyStepAnswersANextState : Obligations.EveryStepAnswersANextState := by
  intro s
  rcases step_cases s with ⟨_, hs⟩ | ⟨_, _, hs⟩ | ⟨cmd, later, _, hi, hs⟩ | ⟨event, later, _, hi, _, hs⟩
  · exact ⟨_, .inl hs⟩
  · exact ⟨_, .inl hs⟩
  · exact ⟨_, .inr ⟨.command cmd, by rw [hi, List.tail_cons], by rw [hi]; exact hs⟩⟩
  · exact ⟨_, .inr ⟨event, by rw [hi, List.tail_cons], by rw [hi]; exact hs⟩⟩

/-- Settles O43: the word is accepted and raises `IllegalCommand`. -/
theorem illegalWordOnlySetsItsStickyBit : Obligations.IllegalWordOnlySetsItsStickyBit := by
  intro s cmd later reason hbusy hinput hd
  rw [step_command hbusy hinput, execWord_error hd]
  rfl

/-- Settles O47: a ready engine with nothing to accept only takes its response away. -/
theorem idleEngineIsStable : Obligations.IdleEngineIsStable := fun _ => step_idle

end Sys2Proof.Machine

/-! # Reset and hazards: hardware reset in a transaction and at the edges, and liveness (spec/70_reset_and_hazards.md) -/

namespace Sys2Proof.Machine

variable {w : Width}

/-! ## Hardware reset as a transaction (spec/70_reset_and_hazards.md R210, R212) -/

/-- But for `GEN_IDX` and the counter of its free values, hardware reset leaves the reset state, whatever was there. -/
theorem hardwareReset_eq_reset (e : Engine w) :
    e.hardwareReset = { Engine.reset w with genIdx := Config.idleGenIdx e.freeCount, freeCount := e.freeCount + 1 } := rfl

theorem hideGenIdx_hardwareReset (e : Engine w) : e.hardwareReset.hideGenIdx = Engine.reset w := by
  rw [hardwareReset_eq_reset]; rfl

/-- `rst` has one effect, between two commands or within one. -/
theorem step_rst {s : State} {event : HostEvent s.width} {later : List (HostEvent s.width)} (h : s.engine.busy = false)
    (hi : s.input = event :: later) (hrst : event = .hardwareReset ∨ ∃ cmd, event = .commandThenReset cmd) :
    step s = .next (State.withEngine { s with input := later } s.engine.hardwareReset) := by
  rw [step_event h hi]
  rcases hrst with rfl | ⟨cmd, rfl⟩ <;> rfl

/-! ## Hardware reset at the edges (spec/70_reset_and_hazards.md R210 to R212) -/

/-- The port shows a busy engine without a response after every edge with `rst` high. -/
theorem edge_rst_busy_silent (e : Engine w) {p : PortIn w} (hr : p.rst = true) :
    (e.edge p).busy = true ∧ (e.edge p).cmdReady = false ∧ (e.edge p).rspValid = false := by
  rw [edge_rst e hr]
  exact ⟨rfl, rfl, rfl⟩

/-- The run of the generator that `rst` begins comes to the engine that the transaction leaves. -/
theorem drain_edge_rst (e : Engine w) {p : PortIn w} (hr : p.rst = true) : (e.edge p).drain = e.hardwareReset := by
  rw [edge_rst e hr, drain_writing rfl rfl rfl]
  rfl

/-! ## Liveness (spec/70_reset_and_hazards.md R223) -/

/-- As many internal actions as are left, or more, make the engine ready. -/
theorem runBusy_of_actionsLeft_le {n : Nat} {e : Engine w} (h : e.actionsLeft ≤ n) : (e.runBusy n).busy = false := by
  have hpos := (actionsLeft_bounds e).1
  induction n generalizing e with
  | zero => omega
  | succ n ih =>
    cases hb : e.busy with
    | false => rw [runBusy_ready hb, hb]
    | true =>
      rw [runBusy_busy hb]
      by_cases hlast : e.actionsLeft = 1
      · have hready : e.advance.busy = false := (advance_completes hb hlast).1
        rw [runBusy_ready hready, hready]
      · obtain ⟨_, _, _, hleft⟩ := advance_waits hb (by omega)
        exact ih (by omega) (by omega)

/-! ## The obligations -/

/-- Settles O45: either form of `rst` resets, and the engine is then the reset state with a free `GEN_IDX`. -/
theorem hardwareResetLoadsTheDefaults : Obligations.HardwareResetLoadsTheDefaults := by
  intro s event later hbusy hinput hrst
  refine ⟨Config.idleGenIdx s.engine.freeCount, s.engine.freeCount + 1, ?_⟩
  rw [step_rst hbusy hinput hrst, hardwareReset_eq_reset]
  rfl

/-- Settles O53: the last edge with `rst` decides, and no reset depends on the state before it. -/
theorem resetEdgesReachTheResetState : Obligations.ResetEdgesReachTheResetState := by
  intro w e valid cmd n
  rw [Function.iterate_succ_apply']
  generalize (Engine.edge ⟨true, valid, cmd⟩)^[n] e = before
  obtain ⟨hbusy, hready, hrsp⟩ := edge_rst_busy_silent before (p := ⟨true, valid, cmd⟩) rfl
  refine ⟨hbusy, hready, hrsp, ?_⟩
  rw [drain_edge_rst before rfl, hideGenIdx_hardwareReset, hideGenIdx_hardwareReset]
  exact ⟨rfl, rfl⟩

/-- Settles O56: no engine has more than 257 internal actions left. -/
theorem everyBusyEngineBecomesReady : Obligations.EveryBusyEngineBecomesReady := fun _ e =>
  runBusy_of_actionsLeft_le (actionsLeft_bounds e).2

end Sys2Proof.Machine
